-- ==== Sys2Proof/Word.lean ====
section
/-! DEFINITION. The widths of the block's values (spec/00_scope.md R8, R9): every value is an unsigned bit vector of a
stated width, so each is a `BitVec` and all right shifts are logical. -/

namespace Sys2Proof

/-- `u32` (R9): one lane, one seed, one register value. -/
abbrev U32 := BitVec 32

/-- `u64` (R9): the result of a 64-bit read. -/
abbrev U64 := BitVec 64

/-- `u128` (R9, R10): one word of the state array, four lanes of 32 bits, lane 0 least significant. -/
abbrev Word := BitVec 128

/-- A command word, 36 bits: `OP` in bits 35:32 and `ARG` in bits 31:0 (R8, R47). -/
abbrev CmdWord := BitVec 36

/-- A response word, 68 bits: `CODE` in bits 67:64 and `DATA` in bits 63:0 (R8, R52). -/
abbrev RspWord := BitVec 68

/-- The cursor register, `IDX_W` = 13 bits (R8, R15). -/
abbrev Cursor := BitVec 13

end Sys2Proof
end

