-- ==== Sys2Proof/Config.lean ====
section
/-! DEFINITION. What is fixed when an instance is built (spec/10_state.md R13: "configuration, fixed when the instance is
built and read-only afterwards"), and the free values. The numbers that belong to a strap value (the exponent, N, the
default parameter table) are in Machine/Rom.lean. -/

namespace Sys2Proof

/-- The ten legal Mersenne exponents (R5), each the meaning of one value of the strap `MEXP_SEL`. Strap values 10 to 15
select nothing, so no constructor stands for them: an instance with such a strap does not exist. -/
inductive MexpSel
  | m607 | m1279 | m2281 | m4253 | m11213 | m19937 | m44497 | m86243 | m132049 | m216091
  deriving DecidableEq, Repr

/-- One entry of the parameter-set ROM (R63), less the columns `MEXP` and `N`: R6 and R64 make those two functions of the
strap, so they are computed from it (`MexpSel.mexp`, `MexpSel.nWords`) and not stored a second time. The field widths are
R63's. -/
structure RomEntry where
  pos1 : BitVec 11
  sl1 : BitVec 5
  sl2 : BitVec 4
  sr1 : BitVec 5
  sr2 : BitVec 4
  msk1 : U32
  msk2 : U32
  msk3 : U32
  msk4 : U32
  parity1 : U32
  parity2 : U32
  parity3 : U32
  parity4 : U32
  deriving DecidableEq, Repr

/-- The configuration of one instance (R13): the strap, and the ONE ROM entry it selects. "An instance reads only the
entry its strap selects" (R65), so no other entry is part of an instance. -/
structure Config where
  sel : MexpSel
  rom : RomEntry
  deriving DecidableEq, Repr

/-- FREE VALUE (log entry 2): what word `i` of the state array holds after the `k`-th assertion of `rst`. The spec says
"every word of `SA` unspecified" (R25), "any value" (93_implementation_defined.md U6). -/
opaque Config.unspecifiedWord : (k i : Nat) → Word

/-- FREE VALUE (log entry 2): what the cursor holds after the `k`-th assertion of `rst`: "`IDX` unspecified" (R25). -/
opaque Config.unspecifiedIdx : (k : Nat) → Cursor

end Sys2Proof
end

