-- ==== Sys2Proof/Machine/Rom.lean ====
section
/-! DEFINITION. The parameter-set ROM (spec/40_param_rom.md) and the numbers that belong to a strap value
(spec/00_scope.md R5, R6). -/

namespace Sys2Proof

/-- The ten strap values in the order of `MEXP_SEL` (R5). -/
def MexpSel.all : List MexpSel :=
  [.m607, .m1279, .m2281, .m4253, .m11213, .m19937, .m44497, .m86243, .m132049, .m216091]

/-- `MEXP`, the Mersenne exponent a strap value selects (R5). -/
def MexpSel.mexp : MexpSel → Nat
  | .m607 => 607
  | .m1279 => 1279
  | .m2281 => 2281
  | .m4253 => 4253
  | .m11213 => 11213
  | .m19937 => 19937
  | .m44497 => 44497
  | .m86243 => 86243
  | .m132049 => 132049
  | .m216091 => 216091

/-- The value of the strap `MEXP_SEL`, 0 to 9 (R5). -/
def MexpSel.strap : MexpSel → BitVec 4
  | .m607 => 0
  | .m1279 => 1
  | .m2281 => 2
  | .m4253 => 3
  | .m11213 => 4
  | .m19937 => 5
  | .m44497 => 6
  | .m86243 => 7
  | .m132049 => 8
  | .m216091 => 9

/-- What a 4-bit strap selects: "values 10 to 15 select nothing" (R5). -/
def MexpSel.ofStrap? (strap : BitVec 4) : Option MexpSel := MexpSel.all[strap.toNat]?

/-- `N = floor(MEXP / 128) + 1`, the number of words in the state array (R6; 90_conflicts.md C1 chooses this formula over
the source's printed one). -/
def MexpSel.nWords (sel : MexpSel) : Nat := sel.mexp / 128 + 1

/-- `N` of an instance (R6). -/
def Config.n (cfg : Config) : Nat := cfg.sel.nWords

/-- `4N`, the number of lanes of an instance: its capacity (R6, R15). -/
def Config.lanes (cfg : Config) : Nat := 4 * cfg.n

/-- `MASK` lane `k`: `MSKk` applies to lane `k-1` (R63, R67). -/
def RomEntry.msk (rom : RomEntry) : Nat → U32
  | 0 => rom.msk1
  | 1 => rom.msk2
  | 2 => rom.msk3
  | _ => rom.msk4

/-- `PARITY[k]` = `PARITY(k+1)`, which meets lane `k` of `SA[0]` (R63, R67). -/
def RomEntry.parity (rom : RomEntry) : Nat → U32
  | 0 => rom.parity1
  | 1 => rom.parity2
  | 2 => rom.parity3
  | _ => rom.parity4

/-- A parameter table: one entry per legal exponent (R63, R66). It is an argument of building an instance and never a part
of the state, which holds the one selected entry. -/
abbrev RomTable := MexpSel → RomEntry

/-- The default table (R66). Every number is the spec's own "from general knowledge" (93_implementation_defined.md G1;
log entry 5, PRESUMED). -/
def RomTable.standard : RomTable
  | .m607 => ⟨2, 15, 3, 13, 3, 0xfdff37ff, 0xef7f3f7d, 0xff777b7d, 0x7ff7fb2f,
      0x00000001, 0x00000000, 0x00000000, 0x5986f054⟩
  | .m1279 => ⟨7, 14, 3, 5, 1, 0xf7fefffd, 0x7fefcfff, 0xaff3ef3f, 0xb5ffff7f,
      0x00000001, 0x00000000, 0x00000000, 0x20000000⟩
  | .m2281 => ⟨12, 19, 1, 5, 1, 0xbff7ffbf, 0xfdfffffe, 0xf7ffef7f, 0xf2f7cbbf,
      0x00000001, 0x00000000, 0x00000000, 0x41dfa600⟩
  | .m4253 => ⟨17, 20, 1, 7, 1, 0x9f7bffff, 0x9fffff5f, 0x3efffffb, 0xfffff7bb,
      0xa8000001, 0xaf5390a3, 0xb740b3f8, 0x6c11486d⟩
  | .m11213 => ⟨68, 14, 3, 7, 3, 0xeffff7fb, 0xffffffef, 0xdfdfbfff, 0x7fffdbfd,
      0x00000001, 0x00000000, 0xe8148000, 0xd0c7afa3⟩
  | .m19937 => ⟨122, 18, 1, 11, 1, 0xdfffffef, 0xddfecb7f, 0xbffaffff, 0xbffffff6,
      0x00000001, 0x00000000, 0x00000000, 0x13c9e684⟩
  | .m44497 => ⟨330, 5, 3, 9, 3, 0xeffffffb, 0xdfbebfff, 0xbfbf7bef, 0x9ffd7bff,
      0x00000001, 0x00000000, 0xa3ac4000, 0xecc1327a⟩
  | .m86243 => ⟨366, 6, 7, 19, 1, 0xfdbffbff, 0xbff7ff3f, 0xfd77efff, 0xbf9ff3ff,
      0x00000001, 0x00000000, 0x00000000, 0xe9528d85⟩
  | .m132049 => ⟨110, 19, 1, 21, 1, 0xffffbb5f, 0xfb6ebf95, 0xfffefffa, 0xcff77fff,
      0x00000001, 0x00000000, 0xcb520000, 0xc7e91c7d⟩
  | .m216091 => ⟨627, 11, 3, 10, 1, 0xbff7bff7, 0xbfffffff, 0xbffffa7f, 0xffddfbfb,
      0xf8000001, 0x89e80709, 0x3bd2b64b, 0x0c64b1e4⟩

/-- The configuration a strap value selects from a table (R7, R65): the selection is made once, when the instance is
built. -/
def Config.ofTable (table : RomTable) (sel : MexpSel) : Config := ⟨sel, table sel⟩

/-- The instance of an exponent with the default table. -/
def Config.standard (sel : MexpSel) : Config := Config.ofTable RomTable.standard sel

/-- The "ISA string" of an instance (R1): `SFMT-STE/1-M<MEXP>`. -/
def Config.isaString (cfg : Config) : String := "SFMT-STE/1-M" ++ toString cfg.sel.mexp

end Sys2Proof
end

