-- ==== Sys2Proof/Syntax.lean ====
section
/-! DEFINITION. The command set (spec/30_encoding.md R48), one constructor per row of spec/opcode_table.json, and the two
fields of a command word. -/

namespace Sys2Proof

/-- The nine commands (R48, R49). The word recurrence is a function unit and no command (R79). -/
inductive Instr
  /-- `SEED s`: `seed_expand(s)` then `period_certification()`; every seed is legal (R94). -/
  | seed (s : U32)
  /-- `CERT`: `period_certification()` alone (R99). -/
  | cert
  /-- `REGEN`: `regenerate()` (R85). -/
  | regen
  /-- `POP32`: raw 32-bit read at the cursor (R107). -/
  | pop32
  /-- `POP64`: raw 64-bit read at the cursor (R108). -/
  | pop64
  /-- `NEXT32`: `next_u32()` (R111). -/
  | next32
  /-- `NEXT64`: `next_u64()` (R112). -/
  | next64
  /-- `PEEK j`: observe lane `j` (R123). -/
  | peek (j : U32)
  /-- `RDREG r`: observe register number `r` (R125). -/
  | rdreg (r : U32)
  deriving DecidableEq, Repr

/-- The two fields of format `C` (R47), before any check: `OP` is bits 35:32, `ARG` bits 31:0. -/
structure CmdFields where
  op : BitVec 4
  arg : U32
  deriving DecidableEq, Repr

/-- The pseudo-command `SEEDB b0, b1, b2, b3` (R50, R59): the seed assembled little-endian from four bytes. -/
def Instr.seedb (b0 b1 b2 b3 : BitVec 8) : Instr := .seed (b3 ++ b2 ++ b1 ++ b0)

/-- The pseudo-commands `NEXT32 * k` and `NEXT64 * k` (R59): `k` copies of the command. -/
def Instr.times (i : Instr) (k : Nat) : List Instr := List.replicate k i

end Sys2Proof
end

