-- ==== Sys2Proof/WellFormed.lean ====
section
/-! DEFINITION. What makes a command word, an instruction, a ROM entry and a configuration well formed. -/

namespace Sys2Proof

/-- A command word's fields are well formed when the word is not *reserved* (R51): `OP` is one of 0x1 to 0x9, and for
`OP` 0x2 to 0x7 `ARG` is zero. -/
def CmdFields.wellFormed (f : CmdFields) : Bool :=
  (1#4 ≤ f.op && f.op ≤ 9#4) && (!(2#4 ≤ f.op && f.op ≤ 7#4) || f.arg == 0#32)

/-- Every value of every operand is a legal form (R49): all 2^32 seeds are legal, and the range checks on `j` and `r` are
made by the command and are no part of decoding (R56). So each constructor's only check is its operand's width, which the
type makes. -/
def Instr.wellFormed : Instr → Bool
  | .seed _ => true
  | .cert => true
  | .regen => true
  | .pop32 => true
  | .pop64 => true
  | .next32 => true
  | .next64 => true
  | .peek _ => true
  | .rdreg _ => true

/-- R64, for an entry of a block of `n` words: `0 < POS1 < N`, and the four parity constants are not all zero. The ranges
of `SL1`, `SR1` (0..31) and `SL2`, `SR2` (0..15) are the widths of the fields, and the masks are any values. -/
abbrev RomEntry.WellFormed (n : Nat) (rom : RomEntry) : Prop :=
  0 < rom.pos1.toNat ∧ rom.pos1.toNat < n ∧
    ¬(rom.parity1 = 0#32 ∧ rom.parity2 = 0#32 ∧ rom.parity3 = 0#32 ∧ rom.parity4 = 0#32)

/-- A legal configuration: the selected entry is well formed for the exponent that selects it (R64). -/
abbrev Config.WellFormed (cfg : Config) : Prop := cfg.rom.WellFormed cfg.n

/-- A legal `ROM_TABLE`: every one of its ten entries is well formed (R64, R66, 92_eei_decisions.md D4). -/
abbrev RomTable.WellFormed (table : RomTable) : Prop :=
  ∀ sel ∈ MexpSel.all, (Config.ofTable table sel).WellFormed

end Sys2Proof
end

