-- ==== Sys2Proof/Decode.lean ====
section
/-! DEFINITION. Decoding, total on the 36-bit command words and rejecting by name (spec/30_encoding.md R51, R56), and the
encoder, its inverse on the nine commands. The opcode table is written once more as mask and pattern rows. -/

namespace Sys2Proof

/-- Why a command word is reserved (R51). -/
inductive Reserved
  /-- `OP` is 0x0 or 0xA to 0xF. -/
  | opcode (op : BitVec 4)
  /-- `OP` is 0x2 to 0x7 and `ARG` is not zero. -/
  | argument (op : BitVec 4) (arg : U32)
  deriving DecidableEq, Repr

/-- What a command word decodes to: one of the nine commands, or reserved. -/
inductive Decoded
  | instr (i : Instr)
  | reserved (why : Reserved)
  deriving DecidableEq, Repr

/-- The fields of a command word (R47): `OP = c[35:32]`, `ARG = c[31:0]`. -/
def CmdFields.ofWord (c : CmdWord) : CmdFields := ⟨c.extractLsb' 32 4, c.extractLsb' 0 32⟩

/-- The command word of two fields (R47): `{OP, ARG}`. -/
def CmdFields.word (f : CmdFields) : CmdWord := f.op ++ f.arg

/-- A command without an operand: `ARG` must be zero (R49). -/
def decodeNoArg (i : Instr) (f : CmdFields) : Decoded :=
  if f.arg = 0#32 then .instr i else .reserved (.argument f.op f.arg)

/-- R56 on the fields of a word. -/
def decodeFields (f : CmdFields) : Decoded :=
  if f.op = 0x1#4 then .instr (.seed f.arg)
  else if f.op = 0x2#4 then decodeNoArg .cert f
  else if f.op = 0x3#4 then decodeNoArg .regen f
  else if f.op = 0x4#4 then decodeNoArg .pop32 f
  else if f.op = 0x5#4 then decodeNoArg .pop64 f
  else if f.op = 0x6#4 then decodeNoArg .next32 f
  else if f.op = 0x7#4 then decodeNoArg .next64 f
  else if f.op = 0x8#4 then .instr (.peek f.arg)
  else if f.op = 0x9#4 then .instr (.rdreg f.arg)
  else .reserved (.opcode f.op)

/-- The decoder (R56), total: of the 2^36 words every one is a command or reserved (R51). -/
def decode (c : CmdWord) : Decoded := decodeFields (CmdFields.ofWord c)

/-- The opcode and operand of a command (R48, R49). -/
def Instr.fields : Instr → CmdFields
  | .seed s => ⟨0x1, s⟩
  | .cert => ⟨0x2, 0⟩
  | .regen => ⟨0x3, 0⟩
  | .pop32 => ⟨0x4, 0⟩
  | .pop64 => ⟨0x5, 0⟩
  | .next32 => ⟨0x6, 0⟩
  | .next64 => ⟨0x7, 0⟩
  | .peek j => ⟨0x8, j⟩
  | .rdreg r => ⟨0x9, r⟩

/-- The encoder (R56): the command word of a command. -/
def encode (i : Instr) : CmdWord := i.fields.word

/-- The mnemonic of a command, as the opcode table spells it (R48). -/
def Instr.mnemonic : Instr → String
  | .seed _ => "SEED"
  | .cert => "CERT"
  | .regen => "REGEN"
  | .pop32 => "POP32"
  | .pop64 => "POP64"
  | .next32 => "NEXT32"
  | .next64 => "NEXT64"
  | .peek _ => "PEEK"
  | .rdreg _ => "RDREG"

/-- One row of spec/opcode_table.json: a word belongs to the row when its bits under `mask` are `pattern`. -/
structure OpcodeRow where
  mnemonic : String
  pattern : CmdWord
  mask : CmdWord
  deriving DecidableEq, Repr

/-- Whether a command word belongs to a row. -/
def OpcodeRow.covers (row : OpcodeRow) (c : CmdWord) : Bool := c &&& row.mask == row.pattern

/-- spec/opcode_table.json, its columns "mnemonic", "match" and "mask". -/
def opcodeTable : List OpcodeRow := [
  ⟨"SEED", 0x100000000, 0xF00000000⟩,
  ⟨"CERT", 0x200000000, 0xFFFFFFFFF⟩,
  ⟨"REGEN", 0x300000000, 0xFFFFFFFFF⟩,
  ⟨"POP32", 0x400000000, 0xFFFFFFFFF⟩,
  ⟨"POP64", 0x500000000, 0xFFFFFFFFF⟩,
  ⟨"NEXT32", 0x600000000, 0xFFFFFFFFF⟩,
  ⟨"NEXT64", 0x700000000, 0xFFFFFFFFF⟩,
  ⟨"PEEK", 0x800000000, 0xF00000000⟩,
  ⟨"RDREG", 0x900000000, 0xF00000000⟩]

/-- The command word whose low `nbits` bits are those of `w` and whose other bits are zero, where that number is a 36-bit
word. A number with a bit above bit 35 is no command word: the port has 36 lines (R47, R55), so it cannot be presented. -/
def tableWord? (nbits w : Nat) : Option CmdWord :=
  if w % 2 ^ nbits < 2 ^ 36 then some (BitVec.ofNat 36 (w % 2 ^ nbits)) else none

/-- The command a word decodes to, where it is not reserved. -/
def Decoded.instr? : Decoded → Option Instr
  | .instr i => some i
  | .reserved _ => none

/-- The instruction the decoder reads from the bits of an opcode-table row, where there is one. -/
def decodeTableWord (nbits w : Nat) : Option Instr :=
  match tableWord? nbits w with
  | none => none
  | some c => (decode c).instr?

end Sys2Proof
end

