-- ==== Sys2Proof/Machine/State.lean ====
section
/-! DEFINITION. The state of one instance (spec/10_state.md), the block's four architectural faults and its responses, and
the two ways the MODEL can stop. -/

namespace Sys2Proof.Machine

/-- The four synchronous faults of the block (R129). Raising one is an ordinary step: it sets a sticky bit, answers with a
code and the block goes on (R131). It is never a `Fault` of the model. -/
inductive SyncFault
  | illegalCommand | notSeeded | cursorOverrun | addressRange
  deriving DecidableEq, Repr

/-- The four sticky fault bits `FAULT` (R17). -/
structure FaultBits where
  illegal : Bool
  notSeeded : Bool
  overrun : Bool
  range : Bool
  deriving DecidableEq, Repr

/-- What the block answers to one command (R52, R53): success with 64 bits of data, or one of the four fault codes, and then
the data is zero. Codes 5 to 15 are never produced. -/
inductive Response
  | ok (data : U64)
  | fault (f : SyncFault)
  deriving DecidableEq, Repr

/-- What the host does to the block between two commands: present a command word (R55), or assert `rst` (R147). -/
inductive HostEvent
  | command (c : CmdWord)
  | rst
  deriving DecidableEq, Repr

/-- The whole state of one instance.

`sa`, `idx`, `seeded` and `fault` are the architectural state, "exactly" (R13). `cfg` is the instance's configuration, which
no command and no reset changes (R5, R13, R65); it stands here because one `step` serves every instance (log entry 6). `pending`,
`responses` and `freeDraws` are the MODEL's own (log entries 3 and 2): the two ports of R55 as lists, and the counter of the
free values. -/
structure State where
  /-- The strap `MEXP_SEL` and the selected ROM entry (R13). -/
  cfg : Config
  /-- The state array `SA[0]` to `SA[N-1]` (R14); its length is `N` in every well-formed state. -/
  sa : List Word
  /-- The cursor `IDX` (R15). -/
  idx : Cursor
  /-- `SEEDED` (R16). -/
  seeded : Bool
  /-- `FAULT`, four sticky bits (R17). -/
  fault : FaultBits
  /-- What the host will do, next event first (R41 (a), R55, R147). -/
  pending : List HostEvent
  /-- The responses produced so far, oldest first (R41 (d), R52). -/
  responses : List Response
  /-- How often `rst` has been asserted: selects the free values of R25's unspecified parts. -/
  freeDraws : Nat
  deriving DecidableEq, Repr

/-- Why the model stops. No behaviour of the block is stuck (93_implementation_defined.md Part 1). -/
inductive Fault
  /-- Raised by the access primitives of the state array (`saRead`, `saWrite` and what is built of them) for a word or lane
  outside `0..N-1` or `0..4N-1`: "An access outside the lane space is never performed" (R46). Only a state whose array has
  not `N` words can reach it. Safe: the model stops where the block has no such state (log entry 7). -/
  | outsideStateArray
  deriving DecidableEq, Repr

/-- Why the model gives no meaning. -/
inductive Refusal
  /-- Raised by an arm of `exec` whose instruction has no meaning yet. No arm is left so. Safe. -/
  | notModelled (mnemonic : String)
  /-- Raised by `construct` for a strap of 10 to 15: "an instance with such a strap does not exist (a model refuses to
  construct it)" (R5). Safe. -/
  | noSuchInstance (strap : BitVec 4)
  /-- Raised by `construct` for a table with an entry that is not well formed: "not a legal `ROM_TABLE`"
  (93_implementation_defined.md U8). Safe. -/
  | illegalRomTable
  deriving DecidableEq, Repr

/-- An instance right after reset (R25): not seeded, no fault. `SA` and `IDX` are unspecified there, and the model names
zero for them (log entry 1, DESIGN CHOICE); no event is pending and no response has been given. -/
def State.resetOf (cfg : Config) : State where
  cfg := cfg
  sa := List.replicate cfg.n 0#128
  idx := 0
  seeded := false
  fault := ⟨false, false, false, false⟩
  pending := []
  responses := []
  freeDraws := 0

/-- The machine right after reset: the instance `SFMT-STE/1-M19937` with the default table (log entry 4, DESIGN CHOICE: the
spec gives `MEXP_SEL` no default). -/
def State.reset : State := State.resetOf (Config.standard .m19937)

end Sys2Proof.Machine
end

