-- ==== Sys2Proof/Machine/Flags.lean ====
section
/-! DEFINITION. The sticky fault bits, the STATUS view of them, and the encodings of faults and responses
(spec/10_state.md R17, R18; spec/30_encoding.md R52, R53; spec/60_exceptions.md R129). -/

namespace Sys2Proof.Machine

/-- The response code of a fault (R53, R129). -/
def SyncFault.code : SyncFault → BitVec 4
  | .illegalCommand => 1
  | .notSeeded => 2
  | .cursorOverrun => 3
  | .addressRange => 4

/-- `CODE` of a response (R52): 0 for success, else the fault code. -/
def Response.code : Response → BitVec 4
  | .ok _ => 0
  | .fault f => f.code

/-- `DATA` of a response (R52): the result, zero when `CODE` is not 0. -/
def Response.data : Response → U64
  | .ok d => d
  | .fault _ => 0

/-- The 68-bit response word `{CODE, DATA}` (R52). -/
def Response.word (r : Response) : RspWord := r.code ++ r.data

/-- The sticky bit of a fault becomes 1; the others stay (R129, R131 (b)). -/
def FaultBits.raised (b : FaultBits) : SyncFault → FaultBits
  | .illegalCommand => { b with illegal := true }
  | .notSeeded => { b with notSeeded := true }
  | .cursorOverrun => { b with overrun := true }
  | .addressRange => { b with range := true }

/-- Whether the sticky bit of a fault is set (R17). -/
def FaultBits.has (b : FaultBits) : SyncFault → Bool
  | .illegalCommand => b.illegal
  | .notSeeded => b.notSeeded
  | .cursorOverrun => b.overrun
  | .addressRange => b.range

/-- All four bits 0, as reset leaves them (R25). -/
def FaultBits.none : FaultBits := ⟨false, false, false, false⟩

/-- `STATUS` (R18), a view and no state of its own: bit 0 `SEEDED`, bits 1 to 4 the sticky bits in code order, bits 31:5
zero. -/
def State.status (s : State) : U32 :=
  0#27 ++ BitVec.ofBool s.fault.range ++ BitVec.ofBool s.fault.overrun ++ BitVec.ofBool s.fault.notSeeded
    ++ BitVec.ofBool s.fault.illegal ++ BitVec.ofBool s.seeded

end Sys2Proof.Machine
end

