-- ==== Sys2Proof/Machine/Operands.lean ====
section
/-! DEFINITION. Lanes of a word, the four vector shifts (spec/00_scope.md R10, R12), the two views of the state array,
words and lanes (spec/20_memory.md R31 to R34), and the register numbers (spec/10_state.md R21). -/

namespace Sys2Proof.Machine

/-- `lane(w, k) = w[32k+31 : 32k]`; lane 0 is the least significant (R10). -/
def lane (w : Word) (k : Nat) : U32 := w.extractLsb' (32 * k) 32

/-- `pack(l0, l1, l2, l3) = {l3, l2, l1, l0}` (R10). -/
def pack (l0 l1 l2 l3 : U32) : Word := l3 ++ l2 ++ l1 ++ l0

/-- `MASK = pack(MSK1, MSK2, MSK3, MSK4)` (R67). -/
def maskV (rom : RomEntry) : Word := pack rom.msk1 rom.msk2 rom.msk3 rom.msk4

/-- `PARITYV = pack(PARITY1, PARITY2, PARITY3, PARITY4)` (R67). -/
def parityV (rom : RomEntry) : Word := pack rom.parity1 rom.parity2 rom.parity3 rom.parity4

/-- The word with lane `k` replaced by `v`; the other lanes are kept (R34). -/
def setLane (w : Word) (k : Nat) (v : U32) : Word :=
  pack (if k = 0 then v else lane w 0) (if k = 1 then v else lane w 1)
    (if k = 2 then v else lane w 2) (if k = 3 then v else lane w 3)

/-- `srl32` (R12): each lane shifted right on its own, zeros entering. -/
def srl32 (w : Word) (s : Nat) : Word :=
  pack (lane w 0 >>> s) (lane w 1 >>> s) (lane w 2 >>> s) (lane w 3 >>> s)

/-- `sll32` (R12): each lane shifted left on its own, its low 32 bits kept. -/
def sll32 (w : Word) (s : Nat) : Word :=
  pack (lane w 0 <<< s) (lane w 1 <<< s) (lane w 2 <<< s) (lane w 3 <<< s)

/-- `shrB` (R12): the whole word shifted right by `c` bytes. -/
def shrB (w : Word) (c : Nat) : Word := w >>> (8 * c)

/-- `shlB` (R12): the whole word shifted left by `c` bytes. -/
def shlB (w : Word) (c : Nat) : Word := w <<< (8 * c)

/-- The read `SA[i]` (R11); there is no word outside the array. -/
def saRead (sa : List Word) (i : Nat) : Option Word := sa[i]?

/-- The write `SA[i] <- v` (R11); there is no word outside the array. -/
def saWrite (sa : List Word) (i : Nat) (v : Word) : Option (List Word) :=
  if i < sa.length then some (sa.set i v) else none

/-- `MemRead(j, 1) = L[j] = lane(SA[j div 4], j mod 4)` (R32, R33); there is no lane outside the array (R46). -/
def memRead1 (sa : List Word) (j : Nat) : Option U32 := (saRead sa (j / 4)).map fun w => lane w (j % 4)

/-- `MemRead(j, 2) = {L[j+1], L[j]}` (R33): the lane at the lower address is the low half, at every `j`, odd or even, in one
word or across two (R36, R109, R110). -/
def memRead2 (sa : List Word) (j : Nat) : Option U64 :=
  match memRead1 sa j, memRead1 sa (j + 1) with
  | some lo, some hi => some (hi ++ lo)
  | _, _ => none

/-- `MemWrite(j, 1, v)`: lane `j` becomes `v` and no other lane changes (R34). -/
def memWrite1 (sa : List Word) (j : Nat) (v : U32) : Option (List Word) :=
  match saRead sa (j / 4) with
  | none => none
  | some w => saWrite sa (j / 4) (setLane w (j % 4) v)

/-- The registers `RDREG` reads, by name (R21). -/
inductive Reg
  | status | idx | mexp | n | pos1 | sl1 | sl2 | sr1 | sr2
  | msk1 | msk2 | msk3 | msk4 | parity1 | parity2 | parity3 | parity4 | mexpSel
  deriving DecidableEq, Repr

/-- The registers in the order of their numbers, 0 to 17 (R21). -/
def Reg.all : List Reg :=
  [.status, .idx, .mexp, .n, .pos1, .sl1, .sl2, .sr1, .sr2,
    .msk1, .msk2, .msk3, .msk4, .parity1, .parity2, .parity3, .parity4, .mexpSel]

/-- The register a number names; numbers 18 and up name nothing (R21). -/
def Reg.ofNumber? (r : Nat) : Option Reg := Reg.all[r]?

end Sys2Proof.Machine
end

