-- ==== Sys2Proof/Machine/Ops.lean ====
section
/-! DEFINITION. The operations the commands share: answering, raising a fault, the effect of `rst`, and building an
instance. -/

namespace Sys2Proof.Machine

/-- The outcome of one step of this machine. -/
abbrev StepResult := Host.Outcome State Fault Refusal

/-- One word on the response port (R11, R52): responses are given in command order (R41 (d)). -/
def answer (r : Response) (s : State) : State := { s with responses := s.responses ++ [r] }

/-- `respond(OK, data)` (R52). -/
def respond (data : U64) (s : State) : StepResult := .next (answer (.ok data) s)

/-- TAKING AN EXCEPTION: `raise F` (R131). The command is abandoned with `SA`, `IDX` and `SEEDED` as they were, the sticky
bit of `F` is set, the response carries its code, and the block is ready for the next command. Nothing is saved, no mode
changes and there is no handler, so there is no return from it either (R133; log entry 13). -/
def raise (f : SyncFault) (s : State) : StepResult :=
  .next (answer (.fault f) { s with fault := s.fault.raised f })

/-- The effect of `rst` between two commands (R25, R147, R148; log entry 9): `SEEDED` and `FAULT` become 0, the strap and the ROM stay,
no response is produced. `SA` and `IDX` become unspecified: every word and the cursor take a free value, new at each
reset (log entry 2). -/
def applyReset (s : State) : State :=
  { s with
    sa := (List.range s.cfg.n).map (Config.unspecifiedWord s.freeDraws)
    idx := Config.unspecifiedIdx s.freeDraws
    seeded := false
    fault := FaultBits.none
    freeDraws := s.freeDraws + 1 }

/-- Building an instance from a strap and a parameter table (R5, R65, R134): a strap of 10 to 15 and an ill-formed table are
refused here, at construction, and never at run time (log entry 12). -/
def construct (strap : BitVec 4) (table : RomTable) : StepResult :=
  match MexpSel.ofStrap? strap with
  | none => .refused (.noSuchInstance strap)
  | some sel =>
    if table.WellFormed then .next (State.resetOf (Config.ofTable table sel))
    else .refused .illegalRomTable

end Sys2Proof.Machine
end

