-- ==== Sys2Proof/Machine/Recurrence.lean ====
section
/-! DEFINITION. The word recurrence (spec/41_recurrence.md), the function unit of every regeneration. -/

namespace Sys2Proof.Machine

/-- `RECUR(a, b, c, d)` (R73), line by line. -/
def recur (rom : RomEntry) (a b c d : Word) : Word :=
  let y := srl32 b rom.sr1.toNat
  let z := shrB c rom.sr2.toNat
  let v := sll32 d rom.sl1.toNat
  let z := z ^^^ a ^^^ v
  let x := shlB a rom.sl2.toNat
  let y := y &&& maskV rom
  let z := z ^^^ x
  z ^^^ y

end Sys2Proof.Machine
end

