-- ==== Sys2Proof/Machine/Regeneration.lean ====
section
/-! DEFINITION. Regeneration of the state array and the command REGEN (spec/42_regenerate.md). -/

namespace Sys2Proof.Machine

/-- The loop of `regenerate()` (R86) with `todo` iterations left, at index `i`, over the array as it stands at that moment:
each new word is written in place and seen by every later iteration; `r1`, `r2` is the rolling pair. -/
def regenLoop (rom : RomEntry) (n : Nat) :
    (todo i : Nat) → (sa : List Word) → (r1 r2 : Word) → Option (List Word)
  | 0, _, sa, _, _ => some sa
  | todo + 1, i, sa, r1, r2 =>
    match saRead sa i, saRead sa ((i + rom.pos1.toNat) % n) with
    | some a, some b =>
      match saWrite sa i (recur rom a b r1 r2) with
      | some sa' => regenLoop rom n todo (i + 1) sa' r2 (recur rom a b r1 r2)
      | none => none
    | _, _ => none

/-- `regenerate()` on the array (R86): the rolling pair starts as the last two words, and `i` runs from 0 to `N-1`. -/
def regenWords (rom : RomEntry) (n : Nat) (sa : List Word) : Option (List Word) :=
  match saRead sa (n - 2), saRead sa (n - 1) with
  | some r1, some r2 => regenLoop rom n n 0 sa r1 r2
  | _, _ => none

/-- `regenerate()` (R86, R89): the whole array is replaced and `IDX` becomes 0. -/
def regenerate (s : State) : Option State :=
  match regenWords s.cfg.rom s.cfg.n s.sa with
  | some sa => some { s with sa := sa, idx := 0 }
  | none => none

/-- `REGEN` (R85): legal at any cursor value; lanes not yet read are discarded (R91 (a)). -/
def execRegen (s : State) : StepResult :=
  if s.seeded = false then raise .notSeeded s
  else
    match regenerate s with
    | none => .fault .outsideStateArray
    | some s' => respond 0 s'

end Sys2Proof.Machine
end

