-- ==== Sys2Proof/Machine/Extraction.lean ====
section
/-! DEFINITION. Output extraction and the lane repackager: POP32, POP64, NEXT32, NEXT64 (spec/44_extract.md). -/

namespace Sys2Proof.Machine

/-- The read both 32-bit commands share (R107, R111): the lane at the cursor, zero-extended, and `IDX <- IDX + 1`. No bit of
the lane is altered (R109). -/
def take32 (s : State) : StepResult :=
  match memRead1 s.sa s.idx.toNat with
  | none => .fault .outsideStateArray
  | some v => respond (v.setWidth 64) { s with idx := s.idx + 1 }

/-- The read both 64-bit commands share (R108, R109, R112): the two lanes at the cursor, the lower address low, and
`IDX <- IDX + 2`. -/
def take64 (s : State) : StepResult :=
  match memRead2 s.sa s.idx.toNat with
  | none => .fault .outsideStateArray
  | some v => respond v { s with idx := s.idx + 2 }

/-- Regeneration on demand (R111, R112): `regenerate()` when the cursor has reached the threshold, else nothing. -/
def regenerateAt (threshold : Nat) (s : State) : Option State :=
  if threshold ≤ s.idx.toNat then regenerate s else some s

/-- `POP32` (R107). -/
def execPop32 (s : State) : StepResult :=
  if s.seeded = false then raise .notSeeded s
  else if s.idx.toNat > s.cfg.lanes - 1 then raise .cursorOverrun s
  else take32 s

/-- `POP64` (R108): at `IDX = 4N-1` it faults and the single remaining lane stays unread. -/
def execPop64 (s : State) : StepResult :=
  if s.seeded = false then raise .notSeeded s
  else if s.idx.toNat > s.cfg.lanes - 2 then raise .cursorOverrun s
  else take64 s

/-- `NEXT32` (R111): regenerates when `IDX >= 4N`. -/
def execNext32 (s : State) : StepResult :=
  if s.seeded = false then raise .notSeeded s
  else
    match regenerateAt s.cfg.lanes s with
    | none => .fault .outsideStateArray
    | some s' => take32 s'

/-- `NEXT64` (R112): regenerates when `IDX >= 4N-1`; at `IDX = 4N-1` the last lane is forfeited (R113). -/
def execNext64 (s : State) : StepResult :=
  if s.seeded = false then raise .notSeeded s
  else
    match regenerateAt (s.cfg.lanes - 1) s with
    | none => .fault .outsideStateArray
    | some s' => take64 s'

end Sys2Proof.Machine
end

