-- ==== Sys2Proof/Machine/Observation.lean ====
section
/-! DEFINITION. The observation commands PEEK and RDREG (spec/45_debug.md); both change no state. -/

namespace Sys2Proof.Machine

/-- `REG(r)` as 32 bits, unused high bits zero (R21, R125): STATUS, the cursor, the very constants the engine uses (R126) and
the strap. -/
def State.reg (s : State) : Reg → U32
  | .status => s.status
  | .idx => s.idx.setWidth 32
  | .mexp => BitVec.ofNat 32 s.cfg.sel.mexp
  | .n => BitVec.ofNat 32 s.cfg.n
  | .pos1 => s.cfg.rom.pos1.setWidth 32
  | .sl1 => s.cfg.rom.sl1.setWidth 32
  | .sl2 => s.cfg.rom.sl2.setWidth 32
  | .sr1 => s.cfg.rom.sr1.setWidth 32
  | .sr2 => s.cfg.rom.sr2.setWidth 32
  | .msk1 => s.cfg.rom.msk1
  | .msk2 => s.cfg.rom.msk2
  | .msk3 => s.cfg.rom.msk3
  | .msk4 => s.cfg.rom.msk4
  | .parity1 => s.cfg.rom.parity1
  | .parity2 => s.cfg.rom.parity2
  | .parity3 => s.cfg.rom.parity3
  | .parity4 => s.cfg.rom.parity4
  | .mexpSel => s.cfg.sel.strap.setWidth 32

/-- `PEEK j` (R123): NotSeeded before AddressRange; `IDX` is not moved and the lane is not consumed. -/
def execPeek (j : U32) (s : State) : StepResult :=
  if s.seeded = false then raise .notSeeded s
  else if j.toNat ≥ s.cfg.lanes then raise .addressRange s
  else
    match memRead1 s.sa j.toNat with
    | none => .fault .outsideStateArray
    | some v => respond (v.setWidth 64) s

/-- `RDREG r` (R125): AddressRange before NotSeeded; every register but 1 is legal in every state. -/
def execRdreg (r : U32) (s : State) : StepResult :=
  match Reg.ofNumber? r.toNat with
  | none => raise .addressRange s
  | some reg =>
    if reg = .idx ∧ s.seeded = false then raise .notSeeded s
    else respond ((s.reg reg).setWidth 64) s

end Sys2Proof.Machine
end

