-- ==== Sys2Proof/Machine/Seeding.lean ====
section
/-! DEFINITION. Seed expansion, period certification and the commands SEED and CERT (spec/43_seed_cert.md). -/

namespace Sys2Proof.Machine

/-- `iterate(prev, i) = (1812433253 * (prev ^ (prev >> 30)) + i) mod 2^32` (R93). -/
def iterate (prev i : U32) : U32 := 1812433253#32 * (prev ^^^ (prev >>> 30)) + i

/-- The word-by-word form of `seed_expand` (R95): `todo` words from word index `w` on, with the running scalar `p`. The
scalar carried past the last word is discarded (R96). -/
def seedWords : (todo w : Nat) → (p : U32) → List Word
  | 0, _, _ => []
  | todo + 1, w, p =>
    let l1 := iterate p (BitVec.ofNat 32 (4 * w + 1))
    let l2 := iterate l1 (BitVec.ofNat 32 (4 * w + 2))
    let l3 := iterate l2 (BitVec.ofNat 32 (4 * w + 3))
    pack p l1 l2 l3 :: seedWords todo (w + 1) (iterate l3 (BitVec.ofNat 32 (4 * w + 4)))

/-- `seed_expand(s)` for an array of `n` words (R95): lane 0 of word 0 is the seed itself. -/
def seedExpand (n : Nat) (seed : U32) : List Word := seedWords n 0 seed

/-- `inner` before the fold (R100): lane by lane `SA[0] AND PARITY`, the four lanes joined by exclusive or. -/
def certInner (rom : RomEntry) (w : Word) : U32 :=
  (lane w 0 &&& rom.parity1) ^^^ (lane w 1 &&& rom.parity2) ^^^ (lane w 2 &&& rom.parity3)
    ^^^ (lane w 3 &&& rom.parity4)

/-- The fold of `inner` (R100); its low bit is the parity of the 32 bits (R101). -/
def certFold (inner : U32) : U32 :=
  let inner := inner ^^^ (inner >>> 16)
  let inner := inner ^^^ (inner >>> 8)
  let inner := inner ^^^ (inner >>> 4)
  let inner := inner ^^^ (inner >>> 2)
  inner ^^^ (inner >>> 1)

/-- The parity bit `certify()` computes of `SA[0]` (R100). It is a temporary and no flag (R20). -/
def certParity (rom : RomEntry) (w : Word) : Bool := (certFold (certInner rom w)).getLsbD 0

/-- The doubling loop of `correct()` with at most `fuel` doublings left (R102). -/
def doubleUntil (p : U32) : (fuel : Nat) → (work : U32) → U32
  | 0, work => work
  | fuel + 1, work => if work &&& p = 0#32 then doubleUntil p fuel (work <<< 1) else work

/-- `work` for a non-zero parity constant (R102): doubled from 1 until it meets a set bit, "at most 31 doublings". -/
def lowestSetBit (p : U32) : U32 := doubleUntil p 31 1

/-- The scan of `correct()` over the lanes `ks` (R102): the first lane with a non-zero parity constant has the constant's
lowest set bit flipped. Where no constant is non-zero nothing is changed (R104 (a)). -/
def correctFrom (rom : RomEntry) (sa : List Word) : (ks : List Nat) → Option (List Word)
  | [] => some sa
  | k :: ks =>
    if rom.parity k ≠ 0#32 then
      match memRead1 sa k with
      | some l => memWrite1 sa k (l ^^^ lowestSetBit (rom.parity k))
      | none => none
    else correctFrom rom sa ks

/-- `correct()` (R102): lanes 0 to 3 in ascending order. -/
def correct (rom : RomEntry) (sa : List Word) : Option (List Word) := correctFrom rom sa [0, 1, 2, 3]

/-- `certify()` on the array (R100): odd parity leaves it unchanged. Only `SA[0]` is read or written. -/
def certifyWords (rom : RomEntry) (sa : List Word) : Option (List Word) :=
  match saRead sa 0 with
  | none => none
  | some w => if certParity rom w then some sa else correct rom sa

/-- `certify()` (R100, R104 (d)): `IDX`, `SEEDED` and `FAULT` are not touched. -/
def certify (s : State) : Option State :=
  match certifyWords s.cfg.rom s.sa with
  | some sa => some { s with sa := sa }
  | none => none

/-- `SEED s` (R94, R97): expansion, `IDX <- 4N`, `SEEDED <- 1`, then certification. Legal in every state; the old contents of
`SA` and `IDX` are never looked at, and the sticky bits survive (R105). -/
def execSeed (seed : U32) (s : State) : StepResult :=
  match certify
      { s with sa := seedExpand s.cfg.n seed, idx := BitVec.ofNat 13 s.cfg.lanes, seeded := true } with
  | none => .fault .outsideStateArray
  | some s' => respond 0 s'

/-- `CERT` (R99): certification alone, on whatever `SA[0]` holds. -/
def execCert (s : State) : StepResult :=
  if s.seeded = false then raise .notSeeded s
  else
    match certify s with
    | none => .fault .outsideStateArray
    | some s' => respond 0 s'

end Sys2Proof.Machine
end

