-- ==== Sys2Proof/Machine/Dispatch.lean ====
section
/-! DEFINITION. One arm per command of the opcode table (spec/30_encoding.md R48). -/

namespace Sys2Proof.Machine

def exec (i : Instr) (s : State) : Host.Outcome State Fault Refusal :=
  match i with
  | .seed seed => Sys2Proof.Machine.execSeed seed s
  | .cert => Sys2Proof.Machine.execCert s
  | .regen => Sys2Proof.Machine.execRegen s
  | .pop32 => Sys2Proof.Machine.execPop32 s
  | .pop64 => Sys2Proof.Machine.execPop64 s
  | .next32 => Sys2Proof.Machine.execNext32 s
  | .next64 => Sys2Proof.Machine.execNext64 s
  | .peek j => Sys2Proof.Machine.execPeek j s
  | .rdreg r => Sys2Proof.Machine.execRdreg r s

end Sys2Proof.Machine
end

