-- ==== Sys2Proof/Machine/Step.lean ====
section
/-! DEFINITION. One step of the machine: the next event at its ports. The block has no program counter and fetches nothing
(spec/10_state.md R19); it executes the commands the host presents, one at a time, in order (spec/20_memory.md R41). -/

namespace Sys2Proof.Machine

/-- One step. With nothing pending the block waits and nothing changes (R148, R158; log entry 8); `rst` has the effect of R148; a command
word is taken off the port, decoded, and run, and a reserved word raises IllegalCommand before any state is looked at
(R51, R132). -/
def step (s : State) : Host.Outcome State Fault Refusal :=
  match s.pending with
  | [] => .next s
  | .rst :: rest => .next (applyReset { s with pending := rest })
  | .command c :: rest =>
    match decode c with
    | .instr i => exec i { s with pending := rest }
    | .reserved _ => raise .illegalCommand { s with pending := rest }

/-- The host presents the command word of an opcode-table row: it becomes the next pending event, so the very next step
decodes and runs it (log entry 3). A number that is no 36-bit word cannot be presented. -/
def State.withFetchWord (s : State) (nbits w : Nat) : State :=
  match tableWord? nbits w with
  | some c => { s with pending := .command c :: s.pending }
  | none => s

end Sys2Proof.Machine
end

