-- ==== Sys2Proof/Machine/Derived.lean ====
section
/-! DEFINITION. The forms the spec gives beside its pseudocode and calls equal to it, written from their own rules. The
machine does not use them: statements compare the machine with them. -/

namespace Sys2Proof.Machine

/-- Regeneration by direct indexing (R88): no rolling pair, the last two operands are read from the array as it stands, at
`(i-2) mod N` and `(i-1) mod N`. -/
def regenDirectLoop (rom : RomEntry) (n : Nat) : (todo i : Nat) → (sa : List Word) → Option (List Word)
  | 0, _, sa => some sa
  | todo + 1, i, sa =>
    match saRead sa i, saRead sa ((i + rom.pos1.toNat) % n), saRead sa ((i + n - 2) % n),
        saRead sa ((i + n - 1) % n) with
    | some a, some b, some c, some d =>
      match saWrite sa i (recur rom a b c d) with
      | some sa' => regenDirectLoop rom n todo (i + 1) sa'
      | none => none
    | _, _, _, _ => none

/-- The direct-index form of `regenerate()` on the array (R88). -/
def regenDirect (rom : RomEntry) (n : Nat) (sa : List Word) : Option (List Word) := regenDirectLoop rom n n 0 sa

/-- The number of 1 bits of a word (R101). -/
def onesCount (w : Word) : Nat := (List.range 128).countP fun i => w.getLsbD i

/-- `MemRead(j, 4)` (R33): the four lanes from `j` on, lane `j` least significant. -/
def memRead4 (sa : List Word) (j : Nat) : Option Word :=
  match memRead1 sa j, memRead1 sa (j + 1), memRead1 sa (j + 2), memRead1 sa (j + 3) with
  | some l0, some l1, some l2, some l3 => some (pack l0 l1 l2 l3)
  | _, _, _, _ => none

/-- `A(t)` of R116, counted from a given array `A(0)`: the array after `t` regenerations. -/
def regenTimes (rom : RomEntry) (n : Nat) : (t : Nat) → (sa : List Word) → Option (List Word)
  | 0, sa => some sa
  | t + 1, sa =>
    match regenTimes rom n t sa with
    | some sa' => regenWords rom n sa'
    | none => none

/-- The seeded, certified array `A0` of a seed (R95, R100, R116). -/
def seededArray (cfg : Config) (seed : U32) : Option (List Word) := certifyWords cfg.rom (seedExpand cfg.n seed)

end Sys2Proof.Machine
end

