-- ==== Sys2Proof/Safety.lean ====
section
/-! DEFINITION. What a well-formed state is, what a run is, and the host's duties: the terms claims are stated in. -/

namespace Sys2Proof.Machine

/-- The invariant of an instance: its ROM entry is legal (R64), its array has `N` words (R6, R14), and while it is seeded
its cursor is at most `4N` (R15). -/
structure State.Inv (s : State) : Prop where
  cfg_wf : s.cfg.WellFormed
  sa_length : s.sa.length = s.cfg.n
  idx_le : s.seeded = true → s.idx.toNat ≤ s.cfg.lanes

/-- The same as a check that can be run. -/
def State.wf (s : State) : Bool :=
  decide s.cfg.WellFormed && s.sa.length == s.cfg.n && (!s.seeded || decide (s.idx.toNat ≤ s.cfg.lanes))

/-- The next state of an outcome, where it has one. -/
def next? : StepResult → Option State
  | .next s => some s
  | .fault _ => none
  | .refused _ => none

/-- Lane `j` of the state array, where there is one (R22, R32). -/
def State.lane? (s : State) (j : Nat) : Option U32 := memRead1 s.sa j

/-- A *run* (R159): a finite sequence of command words given to a state. Its result is the state after the last response,
whose `responses` end with the responses of the run. -/
def runWords (cs : List CmdWord) (s : State) : StepResult :=
  Host.Core.run Sys2Proof.core cs.length { s with pending := cs.map HostEvent.command ++ s.pending }

/-- The duties of a host for one command in a state (R135): SEED first; POP32 and POP64 only with the lanes they need left;
PEEK and RDREG only in range. -/
def HostObeys : Instr → State → Prop
  | .seed _, _ => True
  | .cert, s => s.seeded = true
  | .regen, s => s.seeded = true
  | .pop32, s => s.seeded = true ∧ s.idx.toNat ≤ s.cfg.lanes - 1
  | .pop64, s => s.seeded = true ∧ s.idx.toNat ≤ s.cfg.lanes - 2
  | .next32, s => s.seeded = true
  | .next64, s => s.seeded = true
  | .peek j, s => s.seeded = true ∧ j.toNat < s.cfg.lanes
  | .rdreg r, s => r.toNat ≤ 17 ∧ (r.toNat = 1 → s.seeded = true)

/-- Which fault a command raises in a state (R130, read in the order of R132); none where it answers `OK`. -/
def commandFault : Instr → State → Option SyncFault
  | .seed _, _ => none
  | .cert, s => if s.seeded = true then none else some .notSeeded
  | .regen, s => if s.seeded = true then none else some .notSeeded
  | .pop32, s =>
    if s.seeded = false then some .notSeeded
    else if s.idx.toNat = s.cfg.lanes then some .cursorOverrun
    else none
  | .pop64, s =>
    if s.seeded = false then some .notSeeded
    else if s.cfg.lanes - 1 ≤ s.idx.toNat then some .cursorOverrun
    else none
  | .next32, s => if s.seeded = true then none else some .notSeeded
  | .next64, s => if s.seeded = true then none else some .notSeeded
  | .peek j, s =>
    if s.seeded = false then some .notSeeded
    else if s.cfg.lanes ≤ j.toNat then some .addressRange
    else none
  | .rdreg r, s =>
    if 17 < r.toNat then some .addressRange
    else if r.toNat = 1 ∧ s.seeded = false then some .notSeeded
    else none

/-- Which fault a command word raises in a state: IllegalCommand at decoding, before any state is looked at (R130, R132). -/
def wordFault (c : CmdWord) (s : State) : Option SyncFault :=
  match decode c with
  | .reserved _ => some .illegalCommand
  | .instr i => commandFault i s

/-- Two states of one instance that differ at most in what R25 leaves unspecified: the array and the cursor of an engine
that is not seeded (and the model's counter of free values). -/
structure SameButUnspecified (s t : State) : Prop where
  inv_left : s.Inv
  inv_right : t.Inv
  cfg_eq : s.cfg = t.cfg
  seeded_eq : s.seeded = t.seeded
  fault_eq : s.fault = t.fault
  pending_eq : s.pending = t.pending
  responses_eq : s.responses = t.responses
  sa_eq : s.seeded = true → s.sa = t.sa
  idx_eq : s.seeded = true → s.idx = t.idx

/-- How many lanes a reading command takes (R37); the other commands take none. -/
def lanesTaken : Instr → Nat
  | .seed _ => 0
  | .cert => 0
  | .regen => 0
  | .pop32 => 1
  | .pop64 => 2
  | .next32 => 1
  | .next64 => 2
  | .peek _ => 0
  | .rdreg _ => 0

end Sys2Proof.Machine
end

