-- ==== Sys2Proof/Certificates/Slice0/Obligations.lean ====
section
/-! DEFINITION. The statements for the provers, each from the spec's numbered rules. `raise f s` is fault entry, whose own
rule is `Obligations.FaultEntryChangesOnlyStickyBit`. The worked examples inside a rule are in the tests. -/

open Sys2Proof Sys2Proof.Machine

/-! ### Encoding -/

/-- R56: the decoder is the table of R56, the encoder gives R56's words, and each undoes the other. -/
def Obligations.DecodeAndEncodeAgree : Prop :=
  (∀ c : CmdWord, (decode c).instr? =
    if c.extractLsb' 32 4 = 0x1#4 then some (.seed (c.extractLsb' 0 32))
    else if c.extractLsb' 32 4 = 0x2#4 ∧ c.extractLsb' 0 32 = 0#32 then some .cert
    else if c.extractLsb' 32 4 = 0x3#4 ∧ c.extractLsb' 0 32 = 0#32 then some .regen
    else if c.extractLsb' 32 4 = 0x4#4 ∧ c.extractLsb' 0 32 = 0#32 then some .pop32
    else if c.extractLsb' 32 4 = 0x5#4 ∧ c.extractLsb' 0 32 = 0#32 then some .pop64
    else if c.extractLsb' 32 4 = 0x6#4 ∧ c.extractLsb' 0 32 = 0#32 then some .next32
    else if c.extractLsb' 32 4 = 0x7#4 ∧ c.extractLsb' 0 32 = 0#32 then some .next64
    else if c.extractLsb' 32 4 = 0x8#4 then some (.peek (c.extractLsb' 0 32))
    else if c.extractLsb' 32 4 = 0x9#4 then some (.rdreg (c.extractLsb' 0 32))
    else none) ∧
  (∀ s : U32, encode (.seed s) = 0x100000000#36 ||| s.setWidth 36) ∧
  encode .cert = 0x200000000#36 ∧ encode .regen = 0x300000000#36 ∧ encode .pop32 = 0x400000000#36 ∧
  encode .pop64 = 0x500000000#36 ∧ encode .next32 = 0x600000000#36 ∧ encode .next64 = 0x700000000#36 ∧
  (∀ j : U32, encode (.peek j) = 0x800000000#36 ||| j.setWidth 36) ∧
  (∀ r : U32, encode (.rdreg r) = 0x900000000#36 ||| r.setWidth 36) ∧
  (∀ i : Instr, i.wellFormed = true ∧ decode (encode i) = .instr i) ∧
  (∀ (c : CmdWord) (i : Instr), decode c = .instr i → encode i = c)

/-- R51: which words are reserved, and that a reserved word changes no state but `FAULT.ILLEGAL` and answers code 1. -/
def Obligations.ReservedWordsAreIllegal : Prop :=
  (∀ c : CmdWord, (∃ why, decode c = .reserved why) ↔
    (c.extractLsb' 32 4 = 0x0#4 ∨ 0xA#4 ≤ c.extractLsb' 32 4 ∨
      (0x2#4 ≤ c.extractLsb' 32 4 ∧ c.extractLsb' 32 4 ≤ 0x7#4 ∧ c.extractLsb' 0 32 ≠ 0#32))) ∧
  (∀ (s : State) (c : CmdWord) (why : Reserved) (rest : List HostEvent),
    s.pending = .command c :: rest → decode c = .reserved why →
      step s = .next { s with
        pending := rest
        fault := { s.fault with illegal := true }
        responses := s.responses ++ [.fault .illegalCommand] }) ∧
  (Response.fault .illegalCommand).code = 1#4

/-- spec/opcode_table.json: a word decodes to a command exactly when it belongs to that command's row, and no two rows share
a word. -/
def Obligations.DecoderMatchesOpcodeTable : Prop :=
  (∀ (c : CmdWord) (row : OpcodeRow), row ∈ opcodeTable →
    (row.covers c = true ↔ ∃ i, decode c = .instr i ∧ i.mnemonic = row.mnemonic)) ∧
  (∀ (c : CmdWord) (row row' : OpcodeRow), row ∈ opcodeTable → row' ∈ opcodeTable →
    row.covers c = true → row'.covers c = true → row = row')

/-- R60: the encoding examples, read from their words, and the two response words. -/
def Obligations.ExampleWordsDecode : Prop :=
  decode 0x1000004D2#36 = .instr (.seed 1234) ∧ decode 0x100000000#36 = .instr (.seed 0) ∧
  decode 0x600000000#36 = .instr .next32 ∧ decode 0x700000000#36 = .instr .next64 ∧
  decode 0x80000026F#36 = .instr (.peek 623) ∧ decode 0x900000001#36 = .instr (.rdreg 1) ∧
  (decode 0x600000001#36).instr? = none ∧ (decode 0x000000000#36).instr? = none ∧
  (decode 0xFFFFFFFFF#36).instr? = none ∧
  (Response.ok 3440181298).word = 0x0_0000_0000_CD0D_0032#68 ∧
  (Response.fault .cursorOverrun).word = 0x3_0000_0000_0000_0000#68

/-- R59: the expansions of the pseudo-commands; `SEEDB` assembles its four bytes little-endian. -/
def Obligations.PseudoCommandsExpand : Prop :=
  (∀ b0 b1 b2 b3 : BitVec 8, Instr.seedb b0 b1 b2 b3 =
    .seed (b0.setWidth 32 ||| b1.setWidth 32 <<< 8 ||| b2.setWidth 32 <<< 16 ||| b3.setWidth 32 <<< 24)) ∧
  (∀ (i : Instr) (k : Nat), (i.times k).length = k ∧ ∀ j ∈ i.times k, j = i)

/-- The step runs the decoded command on the state with the command taken off the port; with nothing pending it waits (the
port as a list and the waiting step are the model's: log entries 3 and 8). -/
def Obligations.StepRunsDecodedCommand : Prop :=
  (∀ (s : State) (c : CmdWord) (rest : List HostEvent) (i : Instr),
    s.pending = .command c :: rest → decode c = .instr i → step s = exec i { s with pending := rest }) ∧
  (∀ (s : State) (i : Instr), step { s with pending := .command (encode i) :: s.pending } = exec i s) ∧
  (∀ s : State, s.pending = [] → step s = .next s)

/-- R41 (a), (d): a step takes the first event off the port, a command word adds exactly one response at the end, and no
earlier response is touched. R147, R148: `rst` adds no response. That `rst` is one event between commands and that a step
with nothing pending changes nothing are the model's readings (log entries 9 and 8). -/
def Obligations.OneResponsePerCommandInOrder : Prop :=
  ∀ s t : State, s.Inv → step s = .next t →
    (s.pending = [] ∧ t = s) ∨
    (∃ rest, s.pending = .rst :: rest ∧ t.pending = rest ∧ t.responses = s.responses) ∨
    (∃ c rest r, s.pending = .command c :: rest ∧ t.pending = rest ∧ t.responses = s.responses ++ [r])

/-- R52 and R53: every command word gets exactly one response word; its fields and the codes. -/
def Obligations.ResponseWordFormat : Prop :=
  (∀ (s : State) (c : CmdWord) (rest : List HostEvent), s.Inv → s.pending = .command c :: rest →
    ∃ t r, step s = .next t ∧ t.responses = s.responses ++ [r]) ∧
  (∀ r : Response, r.word.extractLsb' 64 4 = r.code ∧ r.word.extractLsb' 0 64 = r.data ∧
    (r.code ≠ 0 → r.data = 0) ∧ r.code.toNat ≤ 4) ∧
  (∀ d : U64, (Response.ok d).code = 0 ∧ (Response.ok d).data = d) ∧
  (Response.fault .illegalCommand).code = 1 ∧ (Response.fault .notSeeded).code = 2 ∧
  (Response.fault .cursorOverrun).code = 3 ∧ (Response.fault .addressRange).code = 4

/-! ### The state array as lanes -/

/-- R32: lane `j` is lane `j mod 4` of word `j div 4`; a pair and a quad have the lane at the lowest address least
significant, at every address, and a quad at a multiple of 4 is the word. -/
def Obligations.LanesAreLittleEndian : Prop :=
  ∀ (sa : List Word) (j : Nat),
    (∀ w, sa[j / 4]? = some w → memRead1 sa j = some (w.extractLsb' (32 * (j % 4)) 32)) ∧
    (4 * sa.length ≤ j → memRead1 sa j = none) ∧
    (∀ lo hi, memRead1 sa j = some lo → memRead1 sa (j + 1) = some hi →
      memRead2 sa j = some (lo.setWidth 64 ||| hi.setWidth 64 <<< 32)) ∧
    (j % 4 = 0 → memRead4 sa j = sa[j / 4]?)

/-- A lane write changes its lane and no other; a word write changes its four lanes and no other. -/
def Obligations.LaneWriteChangesThatLaneOnly : Prop :=
  (∀ (sa : List Word) (j : Nat) (v : U32), j < 4 * sa.length →
    ∃ sa', memWrite1 sa j v = some sa' ∧ sa'.length = sa.length ∧ memRead1 sa' j = some v ∧
      ∀ k, k ≠ j → memRead1 sa' k = memRead1 sa k) ∧
  (∀ (sa : List Word) (i : Nat) (v : Word), i < sa.length →
    ∃ sa', saWrite sa i v = some sa' ∧ sa'.length = sa.length ∧
      (∀ k, k / 4 = i → memRead1 sa' k = some (lane v (k % 4))) ∧
      ∀ k, k / 4 ≠ i → memRead1 sa' k = memRead1 sa k)

/-! ### The word recurrence -/

/-- R74: the closed form. -/
def Obligations.RecurrenceClosedForm : Prop :=
  ∀ (rom : RomEntry) (a b c d : Word),
    recur rom a b c d =
      a ^^^ shlB a rom.sl2.toNat ^^^ (srl32 b rom.sr1.toNat &&& maskV rom) ^^^ shrB c rom.sr2.toNat
        ^^^ sll32 d rom.sl1.toNat

/-- R75: lane by lane; each lane of the `b` and `d` terms comes from that lane alone, the byte shifts move bits across lanes
(lane `k` of the left one depends on lanes `k` and below, of the right one on lanes `k` and above), and for byte counts 1
to 3 they are built from two neighbouring lanes. -/
def Obligations.RecurrenceLaneByLane : Prop :=
  (∀ (rom : RomEntry) (a b c d : Word) (k : Nat), k < 4 →
    lane (recur rom a b c d) k =
      lane a k ^^^ (shlB a rom.sl2.toNat).extractLsb' (32 * k) 32 ^^^
        ((lane b k >>> rom.sr1.toNat) &&& rom.msk k) ^^^ (shrB c rom.sr2.toNat).extractLsb' (32 * k) 32 ^^^
        (lane d k <<< rom.sl1.toNat)) ∧
  (∀ (a : Word) (s k : Nat), 1 ≤ s → s ≤ 3 → k < 4 →
    (shlB a s).extractLsb' (32 * k) 32 =
      (lane a k <<< (8 * s)) ||| ((if k = 0 then 0#32 else lane a (k - 1)) >>> (32 - 8 * s))) ∧
  (∀ (c : Word) (s k : Nat), 1 ≤ s → s ≤ 3 → k < 4 →
    (shrB c s).extractLsb' (32 * k) 32 =
      (lane c k >>> (8 * s)) ||| ((if k = 3 then 0#32 else lane c (k + 1)) <<< (32 - 8 * s))) ∧
  (∀ (a a' : Word) (s k : Nat), k < 4 → (∀ m ≤ k, lane a m = lane a' m) →
    (shlB a s).extractLsb' (32 * k) 32 = (shlB a' s).extractLsb' (32 * k) 32) ∧
  (∀ (c c' : Word) (s k : Nat), k < 4 → (∀ m, k ≤ m → m < 4 → lane c m = lane c' m) →
    (shrB c s).extractLsb' (32 * k) 32 = (shrB c' s).extractLsb' (32 * k) 32)

/-- R78: the recurrence is linear over GF(2), and so the sum of its four one-operand parts. -/
def Obligations.RecurrenceLinear : Prop :=
  (∀ (rom : RomEntry) (a a' b b' c c' d d' : Word),
    recur rom (a ^^^ a') (b ^^^ b') (c ^^^ c') (d ^^^ d') = recur rom a b c d ^^^ recur rom a' b' c' d') ∧
  (∀ (rom : RomEntry) (a b c d : Word),
    recur rom a b c d = recur rom a 0 0 0 ^^^ recur rom 0 b 0 0 ^^^ recur rom 0 0 c 0 ^^^ recur rom 0 0 0 d)

/-! ### Regeneration -/

/-- R85: REGEN. -/
def Obligations.RegenCommand : Prop :=
  encode .regen = 0x300000000#36 ∧
  ∀ s : State, s.Inv →
    (s.seeded = false → exec .regen s = raise .notSeeded s) ∧
    (s.seeded = true → ∃ sa', regenWords s.cfg.rom s.cfg.n s.sa = some sa' ∧ sa'.length = s.cfg.n ∧
      exec .regen s = .next { s with sa := sa', idx := 0, responses := s.responses ++ [.ok 0] })

/-- R87: which values each iteration of a regeneration sees. `old` and `new` are the words before and after; operand `b` is
old before the wrap split and new after it, `c` and `d` are the two most recently computed words. -/
def Obligations.RegenerationOperandValues : Prop :=
  ∀ s : State, s.Inv → s.seeded = true →
    ∃ t, exec .regen s = .next t ∧ t.sa.length = s.cfg.n ∧
      ∀ i < s.cfg.n, ∃ a b c d r, t.sa[i]? = some r ∧ r = recur s.cfg.rom a b c d ∧
        s.sa[i]? = some a ∧
        (if i < s.cfg.n - s.cfg.rom.pos1.toNat then s.sa[i + s.cfg.rom.pos1.toNat]?
          else t.sa[i + s.cfg.rom.pos1.toNat - s.cfg.n]?) = some b ∧
        (if i = 0 then s.sa[s.cfg.n - 2]? else if i = 1 then s.sa[s.cfg.n - 1]? else t.sa[i - 2]?) = some c ∧
        (if i = 0 then s.sa[s.cfg.n - 1]? else t.sa[i - 1]?) = some d

/-- R88: the rolling pair and direct indexing are the same regeneration. -/
def Obligations.RollingPairEqualsDirectIndexing : Prop :=
  ∀ s : State, s.Inv →
    regenerate s =
      match regenDirect s.cfg.rom s.cfg.n s.sa with
      | some sa' => some { s with sa := sa', idx := 0 }
      | none => none

/-- R90: with `SL2 >= 1` regeneration is a bijection on the arrays of an instance. -/
def Obligations.RegenerationBijective : Prop :=
  ∀ cfg : Config, cfg.WellFormed → 1 ≤ cfg.rom.sl2.toNat →
    ∀ new : List Word, new.length = cfg.n →
      ∃! old : List Word, old.length = cfg.n ∧ regenWords cfg.rom cfg.n old = some new

/-- R91 (d): the all-zero array regenerates to itself, and with `SL2 >= 1` a seeded engine never comes to hold it: SEED does
not produce it and no step from a seeded state with another array leads to it while the engine stays seeded. -/
def Obligations.SeededArrayNeverZero : Prop :=
  (∀ cfg : Config, cfg.WellFormed →
    regenWords cfg.rom cfg.n (List.replicate cfg.n 0#128) = some (List.replicate cfg.n 0#128)) ∧
  (∀ s t : State, s.Inv → 1 ≤ s.cfg.rom.sl2.toNat →
    (s.seeded = true → s.sa ≠ List.replicate s.cfg.n 0#128) → step s = .next t →
      (t.seeded = true → t.sa ≠ List.replicate t.cfg.n 0#128))

/-! ### Seeding and certification -/

/-- R93: the seeding recurrence in exact arithmetic modulo 2^32; `prev >> 30` is the top two bits. -/
def Obligations.IterateFormula : Prop :=
  (∀ prev i : U32, (iterate prev i).toNat = (1812433253 * (prev ^^^ (prev >>> 30)).toNat + i.toNat) % 2 ^ 32) ∧
  (∀ prev : U32, (prev >>> 30).toNat = prev.toNat / 2 ^ 30) ∧
  iterate 1234 1 = 0xbc5448db ∧ iterate 0 1 = 1 ∧ iterate 0xffffffff 1 = 0x4fe1da6d ∧
  iterate 0x80000000 7 = 0x580f12d1

/-- R95: the word-by-word form the machine runs fills the lanes of R95's lane form. -/
def Obligations.SeedExpansionLaneForm : Prop :=
  ∀ (n : Nat) (seed : U32), (seedExpand n seed).length = n ∧
    memRead1 (seedExpand n seed) 0 = (if n = 0 then none else some seed) ∧
    ∀ j, 0 < j → j < 4 * n → ∃ p, memRead1 (seedExpand n seed) (j - 1) = some p ∧
      memRead1 (seedExpand n seed) j = some (iterate p (BitVec.ofNat 32 j))

/-- R94 and R97: SEED in every state, with every seed. -/
def Obligations.SeedCommand : Prop :=
  ∀ (seed : U32) (s : State), encode (.seed seed) = 0x100000000#36 ||| seed.setWidth 36 ∧
    ∃ sa' idx', certifyWords s.cfg.rom (seedExpand s.cfg.n seed) = some sa' ∧ sa'.length = s.cfg.n ∧
      idx'.toNat = 4 * s.cfg.n ∧
      exec (.seed seed) s =
        .next { s with sa := sa', idx := idx', seeded := true, responses := s.responses ++ [.ok 0] }

/-- R105: what SEED leaves depends on the seed and the configuration alone; only the sticky bits survive. -/
def Obligations.SeedForgetsHistory : Prop :=
  ∀ (seed : U32) (s t : State), s.cfg = t.cfg →
    ∃ s' t', exec (.seed seed) s = .next s' ∧ exec (.seed seed) t = .next t' ∧ s'.sa = t'.sa ∧ s'.idx = t'.idx ∧
      s'.seeded = true ∧ t'.seeded = true ∧ s'.cfg = s.cfg ∧ t'.cfg = t.cfg ∧ s'.fault = s.fault ∧ t'.fault = t.fault

/-- R101: the folded low bit is the parity of `SA[0] & PARITYV`, the number of its 1 bits modulo 2. -/
def Obligations.CertificationBitIsParity : Prop :=
  (∀ inner : U32, (certFold inner).getLsbD 0 =
    decide (((List.range 32).countP fun i => inner.getLsbD i) % 2 = 1)) ∧
  (∀ (rom : RomEntry) (w : Word), certParity rom w = decide (onesCount (w &&& parityV rom) % 2 = 1))

/-- R102: for a ROM entry with a non-zero parity constant, the correction flips one bit of `SA[0]`, fixed by the entry: bit
`32k + t`, `k` the first lane with a non-zero constant and `t` the position of its lowest 1 bit. `work` is
`PARITY & (-PARITY)`. It is reached only with parity bit 0, and with all four constants zero it would change nothing. In
every default entry the bit is bit 0: that clause rests on the numbers of the default table, which the model takes from the
spec's general knowledge (log entry 5, PRESUMED). -/
def Obligations.CorrectionFlipsOneFixedBit : Prop :=
  (∀ p : U32, p ≠ 0#32 → lowestSetBit p = p &&& -p) ∧
  (∀ (rom : RomEntry), ¬(rom.parity1 = 0#32 ∧ rom.parity2 = 0#32 ∧ rom.parity3 = 0#32 ∧ rom.parity4 = 0#32) →
    ∃ k < 4, ∃ t < 32, (∀ m < k, rom.parity m = 0#32) ∧ (rom.parity k).getLsbD t = true ∧
      (∀ u < t, (rom.parity k).getLsbD u = false) ∧
      ∀ (w : Word) (ws : List Word),
        correct rom (w :: ws) = some ((w ^^^ (1#128 <<< (32 * k + t))) :: ws)) ∧
  (∀ sel : MexpSel, ∀ (w : Word) (ws : List Word),
    correct (RomTable.standard sel) (w :: ws) = some ((w ^^^ 1#128) :: ws)) ∧
  (∀ (rom : RomEntry) (w : Word) (ws : List Word),
    certifyWords rom (w :: ws) = if certParity rom w = true then some (w :: ws) else correct rom (w :: ws)) ∧
  (∀ rom : RomEntry, rom.parity1 = 0#32 → rom.parity2 = 0#32 → rom.parity3 = 0#32 → rom.parity4 = 0#32 →
    ∀ sa : List Word, correct rom sa = some sa)

/-- R99: CERT on a seeded engine: with odd parity nothing of the array changes, else at most one bit of `SA[0]`. -/
def Obligations.CertCommand : Prop :=
  encode .cert = 0x200000000#36 ∧
  ∀ s : State, s.Inv →
    (s.seeded = false → exec .cert s = raise .notSeeded s) ∧
    (s.seeded = true → ∃ w ws w', s.sa = w :: ws ∧
      exec .cert s = .next { s with sa := w' :: ws, responses := s.responses ++ [.ok 0] } ∧
      (certParity s.cfg.rom w = true → w' = w) ∧
      (certParity s.cfg.rom w = false → correct s.cfg.rom (w :: ws) = some (w' :: ws)) ∧
      (w' = w ∨ ∃ b < 128, w' = w ^^^ (1#128 <<< b)))

/-- R103: certifying twice is certifying once. -/
def Obligations.CertificationIdempotent : Prop :=
  ∀ s : State, s.Inv → s.seeded = true →
    ∃ t u, exec .cert s = .next t ∧ exec .cert t = .next u ∧ u.sa = t.sa ∧
      (t.sa = s.sa ∨ ∃ w b, s.sa[0]? = some w ∧ b < 128 ∧ t.sa = s.sa.set 0 (w ^^^ (1#128 <<< b)))

/-! ### Extraction -/

/-- R107: POP32. -/
def Obligations.Pop32Command : Prop :=
  encode .pop32 = 0x400000000#36 ∧
  ∀ s : State, s.Inv →
    (s.seeded = false → exec .pop32 s = raise .notSeeded s) ∧
    (s.seeded = true → s.idx.toNat = s.cfg.lanes → exec .pop32 s = raise .cursorOverrun s) ∧
    (s.seeded = true → s.idx.toNat < s.cfg.lanes →
      ∃ v idx', s.lane? s.idx.toNat = some v ∧ idx'.toNat = s.idx.toNat + 1 ∧
        exec .pop32 s =
          .next { s with idx := idx', responses := s.responses ++ [.ok (v.setWidth 64)] })

/-- R108 and R109: POP64; the lane at the lower address is the low half. -/
def Obligations.Pop64Command : Prop :=
  encode .pop64 = 0x500000000#36 ∧
  ∀ s : State, s.Inv →
    (s.seeded = false → exec .pop64 s = raise .notSeeded s) ∧
    (s.seeded = true → s.cfg.lanes - 1 ≤ s.idx.toNat → exec .pop64 s = raise .cursorOverrun s) ∧
    (s.seeded = true → s.idx.toNat ≤ s.cfg.lanes - 2 →
      ∃ lo hi idx', s.lane? s.idx.toNat = some lo ∧ s.lane? (s.idx.toNat + 1) = some hi ∧
        idx'.toNat = s.idx.toNat + 2 ∧
        exec .pop64 s = .next { s with
          idx := idx'
          responses := s.responses ++ [.ok (lo.setWidth 64 ||| hi.setWidth 64 <<< 32)] })

/-- R111: NEXT32. -/
def Obligations.Next32Command : Prop :=
  encode .next32 = 0x600000000#36 ∧
  ∀ s : State, s.Inv →
    (s.seeded = false → exec .next32 s = raise .notSeeded s) ∧
    (s.seeded = true → s.idx.toNat < s.cfg.lanes →
      ∃ v idx', s.lane? s.idx.toNat = some v ∧ idx'.toNat = s.idx.toNat + 1 ∧
        exec .next32 s =
          .next { s with idx := idx', responses := s.responses ++ [.ok (v.setWidth 64)] }) ∧
    (s.seeded = true → s.idx.toNat = s.cfg.lanes →
      ∃ sa' v, regenWords s.cfg.rom s.cfg.n s.sa = some sa' ∧ memRead1 sa' 0 = some v ∧
        exec .next32 s =
          .next { s with sa := sa', idx := 1, responses := s.responses ++ [.ok (v.setWidth 64)] })

/-- R112 and R113: NEXT64; at `IDX = 4N-1` it regenerates and the last lane is never delivered. -/
def Obligations.Next64Command : Prop :=
  encode .next64 = 0x700000000#36 ∧
  ∀ s : State, s.Inv →
    (s.seeded = false → exec .next64 s = raise .notSeeded s) ∧
    (s.seeded = true → s.idx.toNat ≤ s.cfg.lanes - 2 →
      ∃ lo hi idx', s.lane? s.idx.toNat = some lo ∧ s.lane? (s.idx.toNat + 1) = some hi ∧
        idx'.toNat = s.idx.toNat + 2 ∧
        exec .next64 s = .next { s with
          idx := idx'
          responses := s.responses ++ [.ok (lo.setWidth 64 ||| hi.setWidth 64 <<< 32)] }) ∧
    (s.seeded = true → s.cfg.lanes - 1 ≤ s.idx.toNat →
      ∃ sa' lo hi, regenWords s.cfg.rom s.cfg.n s.sa = some sa' ∧ memRead1 sa' 0 = some lo ∧
        memRead1 sa' 1 = some hi ∧
        exec .next64 s = .next { s with
          sa := sa'
          idx := 2
          responses := s.responses ++ [.ok (lo.setWidth 64 ||| hi.setWidth 64 <<< 32)] })

/-- A NEXT command is the POP command where lanes are left, and REGEN followed by the POP command where they are not; it
answers once. -/
def Obligations.NextIsRegenThenPop : Prop :=
  ∀ s : State, s.Inv → s.seeded = true →
    (s.idx.toNat < s.cfg.lanes → exec .next32 s = exec .pop32 s) ∧
    (s.idx.toNat + 1 < s.cfg.lanes → exec .next64 s = exec .pop64 s) ∧
    (s.idx.toNat = s.cfg.lanes → ∃ t u r, exec .regen s = .next t ∧ exec .pop32 t = .next u ∧
      u.responses = t.responses ++ [r] ∧ exec .next32 s = .next { u with responses := s.responses ++ [r] }) ∧
    (s.cfg.lanes ≤ s.idx.toNat + 1 → ∃ t u r, exec .regen s = .next t ∧ exec .pop64 t = .next u ∧
      u.responses = t.responses ++ [r] ∧ exec .next64 s = .next { u with responses := s.responses ++ [r] })

/-- R151: directly after SEED the raw reads fault, and both NEXT commands regenerate first, so what they return is of the
regenerated array and never of the seeded one. -/
def Obligations.SeededArrayIsNotOutput : Prop :=
  ∀ (x : U32) (s : State), ∃ t sa', exec (.seed x) s = .next t ∧ regenWords t.cfg.rom t.cfg.n t.sa = some sa' ∧
    exec .pop32 t = raise .cursorOverrun t ∧ exec .pop64 t = raise .cursorOverrun t ∧
    (∃ u v, exec .next32 t = .next u ∧ u.sa = sa' ∧ memRead1 sa' 0 = some v ∧
      u.responses = t.responses ++ [.ok (v.setWidth 64)]) ∧
    (∃ u v, exec .next64 t = .next u ∧ u.sa = sa' ∧ memRead2 sa' 0 = some v ∧
      u.responses = t.responses ++ [.ok v])

/-- R115 (a), (b): any run of NEXT32 and NEXT64 commands on a seeded engine, in any order and of any length, answers `OK` to
every one, raises no fault, and leaves a well-formed seeded engine. -/
def Obligations.InterleavingNeverFaults : Prop :=
  ∀ (is : List Instr) (s : State), (∀ i ∈ is, i = .next32 ∨ i = .next64) → s.Inv → s.seeded = true →
    s.pending = [] →
    ∃ (t : State) (ds : List U64), runWords (is.map encode) s = .next t ∧ t.Inv ∧ t.seeded = true ∧
      t.fault = s.fault ∧ t.pending = [] ∧ ds.length = is.length ∧
      t.responses = s.responses ++ ds.map Response.ok

/-- R115 (c): a read that succeeds delivers the lanes from some address `j` up to the new cursor of the array it leaves, and
`j` is the old cursor when the array is the same; so within one cycle the addresses only grow. -/
def Obligations.ReadsTakeFreshLanes : Prop :=
  ∀ (s t : State) (i : Instr) (d : U64), s.Inv → (i = .pop32 ∨ i = .pop64 ∨ i = .next32 ∨ i = .next64) →
    exec i s = .next t → t.responses = s.responses ++ [.ok d] →
    ∃ j, t.idx.toNat = j + lanesTaken i ∧ t.idx.toNat ≤ s.cfg.lanes ∧
      ((t.sa = s.sa ∧ j = s.idx.toNat) ∨ (regenWords s.cfg.rom s.cfg.n s.sa = some t.sa ∧ j = 0)) ∧
      ((lanesTaken i = 1 ∧ (t.lane? j).map (fun v => v.setWidth 64) = some d) ∨
        (lanesTaken i = 2 ∧ memRead2 t.sa j = some d))

/-- R116: after `SEED x` the `q`-th NEXT32 (`q` counted from 0 here) delivers lane `q mod 4N` of the array after
`1 + q div 4N` regenerations of the seeded, certified array. -/
def Obligations.OutputStream32 : Prop :=
  ∀ (s : State) (x : U32) (k : Nat), s.Inv → s.pending = [] →
    ∃ (t : State) (a0 : List Word) (vs : List U32),
      seededArray s.cfg x = some a0 ∧
      runWords (encode (.seed x) :: List.replicate k (encode .next32)) s = .next t ∧
      vs.length = k ∧
      t.responses = s.responses ++ .ok 0 :: vs.map (fun v => .ok (v.setWidth 64)) ∧
      ∀ q < k, ∃ sa, regenTimes s.cfg.rom s.cfg.n (1 + q / s.cfg.lanes) a0 = some sa ∧
        vs[q]? = memRead1 sa (q % s.cfg.lanes)

/-! ### Observation -/

/-- R123: PEEK. -/
def Obligations.PeekCommand : Prop :=
  ∀ (j : U32) (s : State), s.Inv → encode (.peek j) = 0x800000000#36 ||| j.setWidth 36 ∧
    (s.seeded = false → exec (.peek j) s = raise .notSeeded s) ∧
    (s.seeded = true → 4 * s.cfg.n ≤ j.toNat → exec (.peek j) s = raise .addressRange s) ∧
    (s.seeded = true → j.toNat < 4 * s.cfg.n → ∃ v, s.lane? j.toNat = some v ∧
      exec (.peek j) s = .next { s with responses := s.responses ++ [.ok (v.setWidth 64)] })

/-- R125: RDREG, with the value of each of the eighteen registers. -/
def Obligations.RdregCommand : Prop :=
  ∀ (r : U32) (s : State), encode (.rdreg r) = 0x900000000#36 ||| r.setWidth 36 ∧
    (17 < r.toNat → exec (.rdreg r) s = raise .addressRange s) ∧
    (r.toNat = 1 → s.seeded = false → exec (.rdreg r) s = raise .notSeeded s) ∧
    (r.toNat ≤ 17 → (r.toNat = 1 → s.seeded = true) → ∃ v : Nat,
      [s.status.toNat, s.idx.toNat, s.cfg.sel.mexp, s.cfg.n, s.cfg.rom.pos1.toNat, s.cfg.rom.sl1.toNat,
        s.cfg.rom.sl2.toNat, s.cfg.rom.sr1.toNat, s.cfg.rom.sr2.toNat, s.cfg.rom.msk1.toNat, s.cfg.rom.msk2.toNat,
        s.cfg.rom.msk3.toNat, s.cfg.rom.msk4.toNat, s.cfg.rom.parity1.toNat, s.cfg.rom.parity2.toNat,
        s.cfg.rom.parity3.toNat, s.cfg.rom.parity4.toNat, s.cfg.sel.strap.toNat][r.toNat]? = some v ∧
      exec (.rdreg r) s = .next { s with responses := s.responses ++ [.ok (BitVec.ofNat 64 v)] })

/-- R18: the layout of STATUS, that `RDREG 0` reads it, and that it is 0 after reset. -/
def Obligations.StatusLayout : Prop :=
  (∀ cfg : Config, (State.resetOf cfg).status = 0) ∧
  ∀ s : State,
    s.status.toNat = s.seeded.toNat + 2 * s.fault.illegal.toNat + 4 * s.fault.notSeeded.toNat
      + 8 * s.fault.overrun.toNat + 16 * s.fault.range.toNat ∧
    exec (.rdreg 0) s = .next { s with responses := s.responses ++ [.ok (s.status.setWidth 64)] }

/-! ### Faults -/

/-- R131: a command word answered with a fault code has no effect but the sticky bit, which is set; the others stay; and the
block goes on. -/
def Obligations.FaultEntryChangesOnlyStickyBit : Prop :=
  (∀ (s t : State) (c : CmdWord) (rest : List HostEvent) (f : SyncFault), s.pending = .command c :: rest →
    step s = .next t → t.responses = s.responses ++ [.fault f] →
      t = { s with pending := rest, fault := s.fault.raised f, responses := s.responses ++ [.fault f] }) ∧
  (∀ (b : FaultBits) (f g : SyncFault), (b.raised f).has g = true ↔ g = f ∨ b.has g = true) ∧
  (∀ (f : SyncFault) (s : State),
    raise f s = .next { s with fault := s.fault.raised f, responses := s.responses ++ [.fault f] }) ∧
  (∀ f : SyncFault, (Response.fault f).word = f.code ++ 0#64)

/-- R130 and R132: which command word raises which fault in which state, at most one, in the order of R132. -/
def Obligations.FaultCauses : Prop :=
  ∀ (s : State) (c : CmdWord) (rest : List HostEvent), s.Inv → s.pending = .command c :: rest →
    ∃ t r, step s = .next t ∧ t.responses = s.responses ++ [r] ∧
      ∀ f : SyncFault, r = .fault f ↔ wordFault c s = some f

/-- R135: a host that obeys its duties never sees a fault: every command is answered `OK` and no sticky bit changes. -/
def Obligations.ObeyingHostSeesNoFault : Prop :=
  ∀ (i : Instr) (s : State), s.Inv → HostObeys i s →
    ∃ t d, exec i s = .next t ∧ t.responses = s.responses ++ [.ok d] ∧ t.fault = s.fault ∧ t.cfg = s.cfg ∧
      t.pending = s.pending

/-- R17: raising a fault sets its bit; a sticky bit, once set, is set after every command word, and `rst` clears all four;
and no command but RDREG depends on the sticky bits: run from other bits it answers the same and leaves the same array,
cursor and phase. -/
def Obligations.FaultBitsStickyAndInert : Prop :=
  (∀ (s t : State) (f : SyncFault), raise f s = .next t → t.fault.has f = true) ∧
  (∀ (s t : State) (rest : List HostEvent), s.pending = .rst :: rest → step s = .next t →
    ∀ f : SyncFault, t.fault.has f = false) ∧
  (∀ (s t : State) (c : CmdWord) (rest : List HostEvent), s.pending = .command c :: rest → step s = .next t →
    ∀ f : SyncFault, s.fault.has f = true → t.fault.has f = true) ∧
  (∀ (i : Instr) (s t : State) (b : FaultBits), (∀ r, i ≠ .rdreg r) → exec i s = .next t →
    ∃ b', exec i { s with fault := b } = .next { t with fault := b' })

/-! ### Reset, configuration and the whole machine -/

/-- R148: the effect of `rst`, that reset is the only event that clears `SEEDED` or a sticky bit, and that the block then
waits for commands. What `SA` and `IDX` hold afterwards is unspecified, and nothing is said of it. That `rst` is one event
and a waiting step changes nothing is the model's reading (log entries 9 and 8). -/
def Obligations.ResetAloneClears : Prop :=
  (∀ (s : State) (rest : List HostEvent), s.pending = .rst :: rest →
    ∃ t, step s = .next t ∧ t.seeded = false ∧ t.fault = ⟨false, false, false, false⟩ ∧ t.cfg = s.cfg ∧
      t.responses = s.responses ∧ t.pending = rest ∧ t.sa.length = s.cfg.n) ∧
  (∀ s t : State, step s = .next t →
    ((s.seeded = true ∧ t.seeded = false) ∨ ∃ f, s.fault.has f = true ∧ t.fault.has f = false) →
      ∃ rest, s.pending = .rst :: rest) ∧
  (∀ s : State, s.pending = [] → step s = .next s)

/-- R25, as far as the spec gives values: after reset an instance is not seeded, its sticky bits are 0 and STATUS reads 0.
That `State.reset` is one particular instance is the model's choice (log entry 4). -/
def Obligations.ResetValues : Prop :=
  ∀ cfg : Config, (State.resetOf cfg).seeded = false ∧ (State.resetOf cfg).fault = ⟨false, false, false, false⟩ ∧
    (State.resetOf cfg).cfg = cfg ∧ (State.resetOf cfg).status = 0 ∧ State.reset = State.resetOf State.reset.cfg

/-- The invariant holds right after reset, for every exponent with its default table entry (log entry 5: the entries are
general knowledge; log entry 4: `State.reset` is one of these instances). -/
def Obligations.ResetMeetsInvariant : Prop :=
  (∀ sel : MexpSel, (State.resetOf (Config.standard sel)).Inv) ∧ State.reset.Inv

/-- Every step keeps the invariant: the array keeps its `N` words and the cursor of a seeded engine stays in `0..4N`. -/
def Obligations.StepKeepsInvariant : Prop :=
  ∀ s t : State, s.Inv → step s = .next t → t.Inv

/-- R158, R46: from every well-formed state every step answers a next state: the block never stops, and no access outside
its array is ever made. -/
def Obligations.BlockNeverStops : Prop :=
  ∀ s : State, s.Inv → ∃ t, step s = .next t

/-- R5: the ten exponents in ascending order, their straps 0 to 9 in that order, what a strap selects, what construction
refuses, and that no step changes the exponent or any other constant. -/
def Obligations.ExponentFixedAtConstruction : Prop :=
  MexpSel.all.map MexpSel.mexp = [607, 1279, 2281, 4253, 11213, 19937, 44497, 86243, 132049, 216091] ∧
  MexpSel.all.map MexpSel.strap = [0, 1, 2, 3, 4, 5, 6, 7, 8, 9] ∧
  (∀ sel : MexpSel, sel ∈ MexpSel.all ∧ MexpSel.ofStrap? sel.strap = some sel) ∧
  (∀ (strap : BitVec 4) (table : RomTable), 10 ≤ strap.toNat →
    construct strap table = .refused (.noSuchInstance strap)) ∧
  (∀ (sel : MexpSel) (table : RomTable), table.WellFormed →
    ∃ s, construct sel.strap table = .next s ∧ s.cfg = ⟨sel, table sel⟩ ∧ s.seeded = false) ∧
  (∀ s t : State, step s = .next t → t.cfg = s.cfg)

/-- R6: `N`, its table, that it is also the ceiling of `MEXP / 128`, the lanes, and that the array length never changes. -/
def Obligations.WordsPerExponent : Prop :=
  MexpSel.all.map MexpSel.nWords = [5, 10, 18, 34, 88, 156, 348, 674, 1032, 1689] ∧
  (∀ sel : MexpSel, sel.nWords = sel.mexp / 128 + 1 ∧ sel.nWords = (sel.mexp + 127) / 128) ∧
  (∀ cfg : Config, cfg.n = cfg.sel.nWords ∧ cfg.lanes = 4 * cfg.n) ∧
  (∀ s t : State, s.Inv → step s = .next t → t.sa.length = s.sa.length)

/-- "Every row is well formed by rule R64" (40_param_rom.md, section 2); the numbers are general knowledge (log entry 5). -/
def Obligations.DefaultTableLegal : Prop := RomTable.standard.WellFormed

/-- R15: who writes the cursor, and how. It is unchanged (with the array, but for CERT); or advanced by a read, with the
array unchanged; or 0, 1 or 2 after a regeneration, with the array the regenerated one; or `4N` after SEED. It never wraps,
and it stays in `0..4N` while the engine is seeded. -/
def Obligations.CursorWriters : Prop :=
  ∀ (i : Instr) (s t : State), s.Inv → exec i s = .next t →
    ((t.idx = s.idx ∧ (i = .cert ∨ t.sa = s.sa)) ∨
      ((i = .pop32 ∨ i = .next32) ∧ t.sa = s.sa ∧ t.idx.toNat = s.idx.toNat + 1) ∨
      ((i = .pop64 ∨ i = .next64) ∧ t.sa = s.sa ∧ t.idx.toNat = s.idx.toNat + 2) ∨
      (i = .regen ∧ regenWords s.cfg.rom s.cfg.n s.sa = some t.sa ∧ t.idx = 0) ∨
      (i = .next32 ∧ regenWords s.cfg.rom s.cfg.n s.sa = some t.sa ∧ t.idx = 1) ∨
      (i = .next64 ∧ regenWords s.cfg.rom s.cfg.n s.sa = some t.sa ∧ t.idx = 2) ∨
      ((∃ x, i = .seed x) ∧ t.idx.toNat = s.cfg.lanes)) ∧
    (t.seeded = true → t.idx.toNat ≤ s.cfg.lanes)

/-- R14: which commands write the array, and how much of it. -/
def Obligations.ArrayWriters : Prop :=
  ∀ (i : Instr) (s t : State), s.Inv → exec i s = .next t →
    ((i = .pop32 ∨ i = .pop64 ∨ (∃ j, i = .peek j) ∨ ∃ r, i = .rdreg r) → t.sa = s.sa) ∧
    (i = .next32 → s.idx.toNat < s.cfg.lanes → t.sa = s.sa) ∧
    (i = .next64 → s.idx.toNat + 1 < s.cfg.lanes → t.sa = s.sa) ∧
    (i = .cert → t.sa = s.sa ∨
      ∃ w b, s.sa[0]? = some w ∧ b < 128 ∧ t.sa = s.sa.set 0 (w ^^^ (1#128 <<< b)))

/-- R25, R149: what reset leaves unspecified is unobservable. Two states of one instance that differ in nothing else answer
every sequence of commands and resets alike, for every content of the unseeded arrays and cursors. -/
def Obligations.UnspecifiedPartsUnobservable : Prop :=
  ∀ (k : Nat) (s t : State), SameButUnspecified s t →
    ∃ s' t', Host.Core.run Sys2Proof.core k s = .next s' ∧ Host.Core.run Sys2Proof.core k t = .next t' ∧
      SameButUnspecified s' t'
end

