-- ==== Sys2Proof/Laws/State.lean ====
section
/-! SUPPORT. One lemma per field for each named update of the state, so that no proof unfolds a record update, and the small
lemmas of the fault bits and of the invariant. -/

namespace Sys2Proof.Machine

section answer
variable (r : Response) (s : State)

@[simp] theorem answer_cfg : (answer r s).cfg = s.cfg := rfl
@[simp] theorem answer_sa : (answer r s).sa = s.sa := rfl
@[simp] theorem answer_idx : (answer r s).idx = s.idx := rfl
@[simp] theorem answer_seeded : (answer r s).seeded = s.seeded := rfl
@[simp] theorem answer_fault : (answer r s).fault = s.fault := rfl
@[simp] theorem answer_pending : (answer r s).pending = s.pending := rfl
@[simp] theorem answer_responses : (answer r s).responses = s.responses ++ [r] := rfl
@[simp] theorem answer_freeDraws : (answer r s).freeDraws = s.freeDraws := rfl

end answer

section applyReset
variable (s : State)

@[simp] theorem applyReset_cfg : (applyReset s).cfg = s.cfg := rfl
@[simp] theorem applyReset_sa_length : (applyReset s).sa.length = s.cfg.n := by simp [applyReset]
@[simp] theorem applyReset_seeded : (applyReset s).seeded = false := rfl
@[simp] theorem applyReset_fault : (applyReset s).fault = FaultBits.none := rfl
@[simp] theorem applyReset_pending : (applyReset s).pending = s.pending := rfl
@[simp] theorem applyReset_responses : (applyReset s).responses = s.responses := rfl
@[simp] theorem applyReset_freeDraws : (applyReset s).freeDraws = s.freeDraws + 1 := rfl

end applyReset

section resetOf
variable (cfg : Config)

@[simp] theorem resetOf_cfg : (State.resetOf cfg).cfg = cfg := rfl
@[simp] theorem resetOf_sa_length : (State.resetOf cfg).sa.length = cfg.n := by simp [State.resetOf]
@[simp] theorem resetOf_seeded : (State.resetOf cfg).seeded = false := rfl
@[simp] theorem resetOf_fault : (State.resetOf cfg).fault = FaultBits.none := rfl
@[simp] theorem resetOf_pending : (State.resetOf cfg).pending = [] := rfl
@[simp] theorem resetOf_responses : (State.resetOf cfg).responses = [] := rfl

end resetOf

@[simp] theorem has_none (f : SyncFault) : FaultBits.none.has f = false := by cases f <;> rfl

/-- Raising a fault sets its own sticky bit and leaves the other three. -/
theorem has_raised (b : FaultBits) (f g : SyncFault) : (b.raised f).has g = (decide (f = g) || b.has g) := by
  cases f <;> cases g <;> simp [FaultBits.raised, FaultBits.has]

/-- Every legal exponent gives at least five words (R6, R88). -/
theorem five_le_n (cfg : Config) : 5 ≤ cfg.n := by
  rcases cfg with ⟨sel, rom⟩
  cases sel <;> simp [Config.n, MexpSel.nWords, MexpSel.mexp]

/-- `4N` fits the cursor register (R8). -/
theorem lanes_lt (cfg : Config) : cfg.lanes < 8192 := by
  rcases cfg with ⟨sel, rom⟩
  cases sel <;> simp [Config.lanes, Config.n, MexpSel.nWords, MexpSel.mexp]

/-- The check of the invariant agrees with it. -/
theorem wf_iff (s : State) : s.wf = true ↔ s.Inv := by
  constructor
  · intro h
    simp only [State.wf, Bool.and_eq_true, decide_eq_true_eq, beq_iff_eq, Bool.or_eq_true,
      Bool.not_eq_true'] at h
    refine ⟨h.1.1, h.1.2, fun hs => ?_⟩
    rcases h.2 with h2 | h2
    · rw [hs] at h2; cases h2
    · exact h2
  · intro h
    simp only [State.wf, Bool.and_eq_true, decide_eq_true_eq, beq_iff_eq, Bool.or_eq_true,
      Bool.not_eq_true']
    refine ⟨⟨h.cfg_wf, h.sa_length⟩, ?_⟩
    cases hs : s.seeded
    · exact .inl rfl
    · exact .inr (h.idx_le hs)

/-- A state with the same configuration, array, phase and cursor has the invariant too. -/
theorem State.Inv.congr {s t : State} (h : s.Inv) (hc : t.cfg = s.cfg) (ha : t.sa = s.sa)
    (hs : t.seeded = s.seeded) (hi : t.idx = s.idx) : t.Inv :=
  ⟨hc ▸ h.cfg_wf, by rw [ha, hc]; exact h.sa_length, by rw [hs, hi, hc]; exact h.idx_le⟩

end Sys2Proof.Machine
end

