-- ==== Sys2Proof/Laws/Lanes.lean ====
section
/-! SUPPORT. Lanes and words: what packing, replacing and reading a lane give, and the two views of the state array. -/

namespace Sys2Proof.Machine

/-- Bit `i` of lane `k` is bit `32k + i` of the word (R10). -/
theorem getLsbD_lane (w : Word) (k i : Nat) : (lane w k).getLsbD i = (decide (i < 32) && w.getLsbD (32 * k + i)) := by
  simp [lane, BitVec.getLsbD_extractLsb']

/-- The bits of a packed word (R10). -/
theorem getLsbD_pack (l0 l1 l2 l3 : U32) (i : Nat) :
    (pack l0 l1 l2 l3).getLsbD i =
      if i < 32 then l0.getLsbD i else if i < 64 then l1.getLsbD (i - 32)
      else if i < 96 then l2.getLsbD (i - 64) else l3.getLsbD (i - 96) := by
  simp only [pack, BitVec.getLsbD_append]
  split_ifs <;> first | rfl | omega

@[simp] theorem lane_pack_zero (l0 l1 l2 l3 : U32) : lane (pack l0 l1 l2 l3) 0 = l0 := by
  apply BitVec.eq_of_getLsbD_eq
  intro i hi
  rw [getLsbD_lane, getLsbD_pack, if_pos (by omega)]
  simp [hi]

@[simp] theorem lane_pack_one (l0 l1 l2 l3 : U32) : lane (pack l0 l1 l2 l3) 1 = l1 := by
  apply BitVec.eq_of_getLsbD_eq
  intro i hi
  rw [getLsbD_lane, getLsbD_pack, if_neg (by omega), if_pos (by omega)]
  simp [hi]

@[simp] theorem lane_pack_two (l0 l1 l2 l3 : U32) : lane (pack l0 l1 l2 l3) 2 = l2 := by
  apply BitVec.eq_of_getLsbD_eq
  intro i hi
  rw [getLsbD_lane, getLsbD_pack, if_neg (by omega), if_neg (by omega), if_pos (by omega)]
  simp [hi]

@[simp] theorem lane_pack_three (l0 l1 l2 l3 : U32) : lane (pack l0 l1 l2 l3) 3 = l3 := by
  apply BitVec.eq_of_getLsbD_eq
  intro i hi
  rw [getLsbD_lane, getLsbD_pack, if_neg (by omega), if_neg (by omega), if_neg (by omega)]
  simp [hi]

/-- A word is its four lanes. -/
theorem pack_lanes (w : Word) : pack (lane w 0) (lane w 1) (lane w 2) (lane w 3) = w := by
  apply BitVec.eq_of_getLsbD_eq
  intro i hi
  simp only [getLsbD_pack, getLsbD_lane]
  have key : ∀ k, 32 * k ≤ i → i < 32 * k + 32 → (decide (i - 32 * k < 32) && w.getLsbD (32 * k + (i - 32 * k))) = w.getLsbD i := by
    intro k h1 h2
    rw [show 32 * k + (i - 32 * k) = i by omega]
    simp [show i - 32 * k < 32 by omega]
  split_ifs
  · exact key 0 (by omega) (by omega)
  · exact key 1 (by omega) (by omega)
  · exact key 2 (by omega) (by omega)
  · exact key 3 (by omega) (by omega)

/-- Two words with the same four lanes are equal. -/
theorem word_ext {w v : Word} (h : ∀ k < 4, lane w k = lane v k) : w = v := by
  rw [← pack_lanes w, ← pack_lanes v, h 0 (by omega), h 1 (by omega), h 2 (by omega), h 3 (by omega)]

/-- A replaced lane reads as the new value, every other lane as before (R34). -/
theorem lane_setLane (w : Word) {k m : Nat} (v : U32) (hm : m < 4) :
    lane (setLane w k v) m = if k = m then v else lane w m := by
  have : m = 0 ∨ m = 1 ∨ m = 2 ∨ m = 3 := by omega
  rcases this with rfl | rfl | rfl | rfl <;> simp [setLane]

theorem lane_xor (w v : Word) (k : Nat) : lane (w ^^^ v) k = lane w k ^^^ lane v k := by
  simp [lane, BitVec.extractLsb'_xor]

theorem lane_and (w v : Word) (k : Nat) : lane (w &&& v) k = lane w k &&& lane v k := by
  simp [lane, BitVec.extractLsb'_and]

section array
variable {sa sa' : List Word} {i j : Nat} {v w : Word}

/-- There is a word `i` exactly for `i` in `0..N-1`. -/
theorem saRead_eq_some (h : i < sa.length) : saRead sa i = some sa[i] := by simp [saRead, h]

theorem saRead_eq_none (h : sa.length ≤ i) : saRead sa i = none := by simp [saRead, h]

/-- What a word write can do: it happens in range only and changes that word alone. -/
theorem saWrite_eq_some : saWrite sa i v = some sa' ↔ i < sa.length ∧ sa' = sa.set i v := by
  unfold saWrite
  split <;> simp_all [eq_comm]

theorem saWrite_of_lt (h : i < sa.length) : saWrite sa i v = some (sa.set i v) := by simp [saWrite, h]

/-- There is a lane `j` exactly for `j` in `0..4N-1` (R39). -/
theorem memRead1_eq_some (h : j < 4 * sa.length) :
    memRead1 sa j = some (lane (sa[j / 4]'(by omega)) (j % 4)) := by
  simp [memRead1, saRead_eq_some (show j / 4 < sa.length by omega)]

theorem memRead1_eq_none (h : 4 * sa.length ≤ j) : memRead1 sa j = none := by
  simp [memRead1, saRead_eq_none (show sa.length ≤ j / 4 by omega)]

/-- The 64-bit read is the two lanes, the lower address low (R33, R109). -/
theorem memRead2_eq_some (h : j + 1 < 4 * sa.length) :
    memRead2 sa j = some (lane (sa[(j + 1) / 4]'(by omega)) ((j + 1) % 4) ++ lane (sa[j / 4]'(by omega)) (j % 4)) := by
  simp [memRead2, memRead1_eq_some (show j < 4 * sa.length by omega), memRead1_eq_some h]

/-- What a lane write can do (R34). -/
theorem memWrite1_of_lt {x : U32} (h : j < 4 * sa.length) :
    memWrite1 sa j x = some (sa.set (j / 4) (setLane (sa[j / 4]'(by omega)) (j % 4) x)) := by
  simp [memWrite1, saRead_eq_some (show j / 4 < sa.length by omega), saWrite_of_lt (show j / 4 < sa.length by omega)]

end array

end Sys2Proof.Machine
end

