-- ==== Sys2Proof/Laws/Ops.lean ====
section
/-! SUPPORT. What each operation the commands share can do, said once. -/

namespace Sys2Proof.Machine

/-- A response is a next state and changes nothing but the list of responses. -/
@[simp] theorem respond_eq_next (d : U64) (s t : State) :
    respond d s = .next t ↔ t = { s with responses := s.responses ++ [.ok d] } := by
  simp [respond, answer, eq_comm]

/-- Raising a fault is a next state and changes nothing but the sticky bits and the list of responses (R131). -/
@[simp] theorem raise_eq_next (f : SyncFault) (s t : State) :
    raise f s = .next t ↔
      t = { s with fault := s.fault.raised f, responses := s.responses ++ [.fault f] } := by
  simp [raise, answer, eq_comm]

/-- The 32-bit read completes whenever the cursor names a lane. -/
theorem take32_of_lt (s : State) (h : s.idx.toNat < 4 * s.sa.length) :
    ∃ v, s.lane? s.idx.toNat = some v ∧ take32 s = respond (v.setWidth 64) { s with idx := s.idx + 1 } := by
  refine ⟨_, memRead1_eq_some h, ?_⟩
  simp [take32, memRead1_eq_some h]

/-- The 64-bit read completes whenever the cursor and the address after it name lanes; the lower address is the low half. -/
theorem take64_of_lt (s : State) (h : s.idx.toNat + 1 < 4 * s.sa.length) :
    ∃ lo hi, s.lane? s.idx.toNat = some lo ∧ s.lane? (s.idx.toNat + 1) = some hi ∧
      take64 s = respond (hi ++ lo) { s with idx := s.idx + 2 } := by
  refine ⟨_, _, memRead1_eq_some (by omega), memRead1_eq_some h, ?_⟩
  simp [take64, memRead2_eq_some h]

/-- What the 32-bit read can do. -/
theorem take32_next {s t : State} (h : take32 s = .next t) :
    ∃ v, s.lane? s.idx.toNat = some v ∧
      t = { s with idx := s.idx + 1, responses := s.responses ++ [.ok (v.setWidth 64)] } := by
  unfold take32 at h
  split at h
  · cases h
  · next v hv => exact ⟨v, hv, (respond_eq_next _ _ _).1 h⟩

/-- What the 64-bit read can do. -/
theorem take64_next {s t : State} (h : take64 s = .next t) :
    ∃ v, memRead2 s.sa s.idx.toNat = some v ∧
      t = { s with idx := s.idx + 2, responses := s.responses ++ [.ok v] } := by
  unfold take64 at h
  split at h
  · cases h
  · next v hv => exact ⟨v, hv, (respond_eq_next _ _ _).1 h⟩

/-- Advancing the cursor by one does not wrap while a lane is left (R15). -/
theorem idx_add_one_toNat {s : State} (h : s.idx.toNat < s.cfg.lanes) : (s.idx + 1).toNat = s.idx.toNat + 1 := by
  have := lanes_lt s.cfg
  rw [BitVec.toNat_add, show (1 : Cursor).toNat = 1 from rfl]
  omega

/-- Advancing the cursor by two does not wrap while two lanes are left (R15). -/
theorem idx_add_two_toNat {s : State} (h : s.idx.toNat + 1 < s.cfg.lanes) : (s.idx + 2).toNat = s.idx.toNat + 2 := by
  have := lanes_lt s.cfg
  rw [BitVec.toNat_add, show (2 : Cursor).toNat = 2 from rfl]
  omega

/-- `4N` in the cursor register is `4N` (R8, R97). -/
theorem ofNat_lanes_toNat (cfg : Config) : (BitVec.ofNat 13 cfg.lanes).toNat = cfg.lanes := by
  have := lanes_lt cfg
  simp only [BitVec.toNat_ofNat]
  omega

/-- Construction refuses exactly what R5 and R64 rule out. -/
theorem construct_eq (strap : BitVec 4) (table : RomTable) :
    construct strap table =
      match MexpSel.ofStrap? strap with
      | none => .refused (.noSuchInstance strap)
      | some sel =>
        if table.WellFormed then .next (State.resetOf (Config.ofTable table sel))
        else .refused .illegalRomTable := rfl

end Sys2Proof.Machine
end

