-- ==== Sys2Proof/Laws/PerInstr.lean ====
section
/-! SUPPORT. Statements made for every command, one lemma per constructor of `Instr`. -/

namespace Sys2Proof.Laws.EncodedFields

/-- The fields of a command's word are the fields it was encoded from (R47), and they are a legal form (R51). -/
def Statement (i : Instr) : Prop := CmdFields.ofWord (encode i) = i.fields ∧ i.fields.wellFormed = true

/-- The bits of a word made of two fields (R47). -/
theorem getLsbD_word (f : CmdFields) (i : Nat) :
    f.word.getLsbD i = if i < 32 then f.arg.getLsbD i else f.op.getLsbD (i - 32) := by
  have h : f.word.getLsbD i = _ := BitVec.getLsbD_append (x := f.op) (y := f.arg) (i := i)
  rw [h]

/-- Splitting a word into its fields undoes joining them (R47). -/
theorem ofWord_word (f : CmdFields) : CmdFields.ofWord f.word = f := by
  have hop : (f.word.extractLsb' 32 4) = f.op := by
    apply BitVec.eq_of_getLsbD_eq
    intro i hi
    rw [BitVec.getLsbD_extractLsb', getLsbD_word, if_neg (by omega), Nat.add_sub_cancel_left]
    simp [hi]
  have harg : (f.word.extractLsb' 0 32) = f.arg := by
    apply BitVec.eq_of_getLsbD_eq
    intro i hi
    rw [BitVec.getLsbD_extractLsb', getLsbD_word, if_pos (by omega), Nat.zero_add]
    simp [hi]
  rw [CmdFields.ofWord, hop, harg]

/-- Joining the fields of a word gives the word (R47). -/
theorem word_ofWord (c : CmdWord) : (CmdFields.ofWord c).word = c := by
  apply BitVec.eq_of_getLsbD_eq
  intro i hi
  rw [getLsbD_word]
  simp only [CmdFields.ofWord, BitVec.getLsbD_extractLsb']
  split
  · simp [*]
  · rw [show 32 + (i - 32) = i by omega]
    simp [show i - 32 < 4 by omega]

theorem seed (s : U32) : Statement (.seed s) := ⟨ofWord_word _, rfl⟩
theorem cert : Statement .cert := ⟨ofWord_word _, rfl⟩
theorem regen : Statement .regen := ⟨ofWord_word _, rfl⟩
theorem pop32 : Statement .pop32 := ⟨ofWord_word _, rfl⟩
theorem pop64 : Statement .pop64 := ⟨ofWord_word _, rfl⟩
theorem next32 : Statement .next32 := ⟨ofWord_word _, rfl⟩
theorem next64 : Statement .next64 := ⟨ofWord_word _, rfl⟩
theorem peek (j : U32) : Statement (.peek j) := ⟨ofWord_word _, rfl⟩
theorem rdreg (r : U32) : Statement (.rdreg r) := ⟨ofWord_word _, rfl⟩

end Sys2Proof.Laws.EncodedFields
end

