-- ==== Sys2Proof/Laws/Regeneration.lean ====
section
/-! SUPPORT. Regeneration: it completes on every array of the right length and keeps the length; what it can do. -/

namespace Sys2Proof.Machine

/-- One iteration, unfolded once: the new word, then the array and the rolling pair after it (R86). -/
theorem regenLoop_succ {rom : RomEntry} {n todo i : Nat} {sa : List Word} (r1 r2 : Word) (hn : sa.length = n)
    (hi : i < n) :
    ∃ a b, sa[i]? = some a ∧ sa[(i + rom.pos1.toNat) % n]? = some b ∧
      regenLoop rom n (todo + 1) i sa r1 r2 =
        regenLoop rom n todo (i + 1) (sa.set i (recur rom a b r1 r2)) r2 (recur rom a b r1 r2) := by
  have hb : (i + rom.pos1.toNat) % n < sa.length := by rw [hn]; exact Nat.mod_lt _ (by omega)
  have ha : i < sa.length := by omega
  refine ⟨sa[i], sa[(i + rom.pos1.toNat) % n], List.getElem?_eq_getElem ha, List.getElem?_eq_getElem hb, ?_⟩
  simp only [regenLoop, saRead_eq_some ha, saRead_eq_some hb, saWrite_of_lt ha]

/-- The loop completes, keeps the length, and leaves the words before its first index as they were. -/
theorem regenLoop_total (rom : RomEntry) (n todo : Nat) :
    ∀ (i : Nat) (sa : List Word) (r1 r2 : Word), sa.length = n → i + todo ≤ n →
      ∃ sa', regenLoop rom n todo i sa r1 r2 = some sa' ∧ sa'.length = n ∧ ∀ k < i, sa'[k]? = sa[k]? := by
  induction todo with
  | zero => intro i sa r1 r2 hn _; exact ⟨sa, rfl, hn, fun _ _ => rfl⟩
  | succ todo ih =>
    intro i sa r1 r2 hn hle
    obtain ⟨a, b, -, -, he⟩ := regenLoop_succ (rom := rom) (todo := todo) r1 r2 hn (show i < n by omega)
    obtain ⟨sa', h1, h2, h3⟩ := ih (i + 1) (sa.set i (recur rom a b r1 r2)) r2 (recur rom a b r1 r2)
      (by rw [List.length_set]; exact hn) (by omega)
    refine ⟨sa', he.trans h1, h2, fun k hk => ?_⟩
    rw [h3 k (by omega), List.getElem?_set_ne (by omega)]

/-- `regenerate()` completes on every array of the instance's length (R89: "No failure mode"). -/
theorem regenWords_total (cfg : Config) (sa : List Word) (h : sa.length = cfg.n) :
    ∃ sa', regenWords cfg.rom cfg.n sa = some sa' ∧ sa'.length = cfg.n := by
  have hn := five_le_n cfg
  obtain ⟨sa', h1, h2, -⟩ :=
    regenLoop_total cfg.rom cfg.n cfg.n 0 sa (sa[cfg.n - 2]'(by omega)) (sa[cfg.n - 1]'(by omega)) h (by omega)
  refine ⟨sa', ?_, h2⟩
  simp only [regenWords, saRead_eq_some (show cfg.n - 2 < sa.length by omega),
    saRead_eq_some (show cfg.n - 1 < sa.length by omega), h1]

/-- The length of a regenerated array. -/
theorem regenWords_length {cfg : Config} {sa sa' : List Word} (h : sa.length = cfg.n)
    (hr : regenWords cfg.rom cfg.n sa = some sa') : sa'.length = cfg.n := by
  obtain ⟨sa'', h1, h2⟩ := regenWords_total cfg sa h
  rw [hr] at h1
  cases h1
  exact h2

/-- What `regenerate()` can do to a state (R89): the array is replaced, the cursor is 0, nothing else changes. -/
theorem regenerate_eq_some {s t : State} :
    regenerate s = some t ↔
      ∃ sa', regenWords s.cfg.rom s.cfg.n s.sa = some sa' ∧ t = { s with sa := sa', idx := 0 } := by
  unfold regenerate
  split
  · next sa' h => simp [h, eq_comm]
  · next h => simp [h]

/-- `regenerate()` completes in every state whose array has `N` words. -/
theorem regenerate_total {s : State} (h : s.sa.length = s.cfg.n) :
    ∃ sa', regenWords s.cfg.rom s.cfg.n s.sa = some sa' ∧ sa'.length = s.cfg.n ∧
      regenerate s = some { s with sa := sa', idx := 0 } := by
  obtain ⟨sa', h1, h2⟩ := regenWords_total s.cfg s.sa h
  exact ⟨sa', h1, h2, regenerate_eq_some.2 ⟨sa', h1, rfl⟩⟩

/-- Below the threshold regeneration on demand does nothing. -/
theorem regenerateAt_of_lt {threshold : Nat} {s : State} (h : s.idx.toNat < threshold) :
    regenerateAt threshold s = some s := by
  simp [regenerateAt, Nat.not_le.2 h]

/-- At or above the threshold it is `regenerate()`. -/
theorem regenerateAt_of_le {threshold : Nat} {s : State} (h : threshold ≤ s.idx.toNat) :
    regenerateAt threshold s = regenerate s := by
  simp [regenerateAt, h]

/-- Many regenerations complete and keep the length. -/
theorem regenTimes_total (cfg : Config) (t : Nat) (sa : List Word) (h : sa.length = cfg.n) :
    ∃ sa', regenTimes cfg.rom cfg.n t sa = some sa' ∧ sa'.length = cfg.n := by
  induction t with
  | zero => exact ⟨sa, rfl, h⟩
  | succ t ih =>
    obtain ⟨sa1, h1, h2⟩ := ih
    obtain ⟨sa2, h3, h4⟩ := regenWords_total cfg sa1 h2
    exact ⟨sa2, by simp only [regenTimes, h1, h3], h4⟩

end Sys2Proof.Machine
end

