-- ==== Sys2Proof/Laws/Seeding.lean ====
section
/-! SUPPORT. Seed expansion and certification: lengths, and what the correction can do. -/

namespace Sys2Proof.Machine

@[simp] theorem seedWords_length (todo w : Nat) (p : U32) : (seedWords todo w p).length = todo := by
  induction todo generalizing w p with
  | zero => rfl
  | succ todo ih => simp [seedWords, ih]

@[simp] theorem seedExpand_length (n : Nat) (seed : U32) : (seedExpand n seed).length = n := by simp [seedExpand]

/-- A scan over lanes of `SA[0]` either finds no non-zero constant and changes nothing, or replaces `SA[0]` by itself with the
lowest set bit of the first non-zero constant flipped in that constant's lane (R102). -/
theorem correctFrom_cases (rom : RomEntry) {sa : List Word} (h : 0 < sa.length) (ks : List Nat) (hk : ∀ k ∈ ks, k < 4) :
    (correctFrom rom sa ks = some sa ∧ ∀ k ∈ ks, rom.parity k = 0#32) ∨
      ∃ k ∈ ks, rom.parity k ≠ 0#32 ∧ correctFrom rom sa ks =
        some (sa.set 0 (setLane sa[0] k (lane sa[0] k ^^^ lowestSetBit (rom.parity k)))) := by
  induction ks with
  | nil => exact .inl ⟨rfl, by simp⟩
  | cons k ks ih =>
    have hk4 : k < 4 := hk k (by simp)
    by_cases hp : rom.parity k = 0#32
    · rcases ih (fun m hm => hk m (by simp [hm])) with ⟨h1, h2⟩ | ⟨m, hm, h1, h2⟩
      · exact .inl ⟨by simp [correctFrom, hp, h1], by simpa [hp] using h2⟩
      · exact .inr ⟨m, by simp [hm], h1, by simp [correctFrom, hp, h2]⟩
    · refine .inr ⟨k, by simp, hp, ?_⟩
      have hr := memRead1_eq_some (sa := sa) (j := k) (by omega)
      have hw := memWrite1_of_lt (sa := sa) (j := k) (x := lane sa[0] k ^^^ lowestSetBit (rom.parity k)) (by omega)
      simp only [show k / 4 = 0 by omega, show k % 4 = k by omega] at hr hw
      simp only [correctFrom, ne_eq, hp, not_false_eq_true, if_true, hr, hw]

/-- `certify()` completes on every array that has a word, keeps the length and leaves every word but `SA[0]` (R104 (d)). -/
theorem certifyWords_total (rom : RomEntry) {sa : List Word} (h : 0 < sa.length) :
    ∃ sa', certifyWords rom sa = some sa' ∧ sa'.length = sa.length ∧ ∀ i, i ≠ 0 → sa'[i]? = sa[i]? := by
  simp only [certifyWords, saRead_eq_some h]
  by_cases hp : certParity rom sa[0] = true
  · exact ⟨sa, by simp [hp], rfl, fun _ _ => rfl⟩
  · simp only [Bool.not_eq_true] at hp
    simp only [hp, Bool.false_eq_true, if_false, correct]
    rcases correctFrom_cases rom h [0, 1, 2, 3] (by simp) with ⟨h1, -⟩ | ⟨k, -, -, h1⟩
    · exact ⟨sa, h1, rfl, fun _ _ => rfl⟩
    · exact ⟨_, h1, by simp, fun i hi => List.getElem?_set_ne (by omega)⟩

/-- What `certify()` can do to a state: only the array changes. -/
theorem certify_eq_some {s t : State} :
    certify s = some t ↔ ∃ sa', certifyWords s.cfg.rom s.sa = some sa' ∧ t = { s with sa := sa' } := by
  unfold certify
  split
  · next sa' h => simp [h, eq_comm]
  · next h => simp [h]

end Sys2Proof.Machine
end

