-- ==== Sys2Proof/Laws/Step.lean ====
section
/-! SUPPORT. What one step can do, said once, and how a run unfolds. -/

namespace Sys2Proof.Machine

/-- What a step is: waiting, `rst`, a decoded command, or a reserved word. -/
theorem step_cases (s : State) :
    (s.pending = [] ∧ step s = .next s) ∨
    (∃ rest, s.pending = .rst :: rest ∧ step s = .next (applyReset { s with pending := rest })) ∨
    (∃ c rest i, s.pending = .command c :: rest ∧ decode c = .instr i ∧ step s = exec i { s with pending := rest }) ∨
    (∃ c rest why, s.pending = .command c :: rest ∧ decode c = .reserved why ∧
      step s = raise .illegalCommand { s with pending := rest }) := by
  unfold step
  split
  · exact .inl ⟨by assumption, rfl⟩
  · next rest h => exact .inr (.inl ⟨rest, h, rfl⟩)
  · next c rest h =>
    split
    · next i hd => exact .inr (.inr (.inl ⟨c, rest, i, h, hd, rfl⟩))
    · next why hd => exact .inr (.inr (.inr ⟨c, rest, why, h, hd, rfl⟩))

/-- A run of no words ends where it starts. -/
theorem runWords_nil (s : State) : runWords [] s = .next s := rfl

/-- A run steps through its first word and then runs the others. -/
theorem runWords_cons (c : CmdWord) (cs : List CmdWord) (s t : State)
    (h : step { s with pending := .command c :: (cs.map HostEvent.command ++ s.pending) } = .next t) :
    runWords (c :: cs) s = Host.Core.run Sys2Proof.core cs.length t := by
  simp only [runWords, List.length_cons, Host.Core.run, List.map_cons, List.cons_append, Sys2Proof.core] at *
  rw [h]

end Sys2Proof.Machine
end

