-- ==== Sys2Proof/Machine/Text.lean ====
section
/-! DEFINITION. The text syntax of commands and responses (spec/30_encoding.md R58, R59). It stands outside the machine: no
step reads or writes text (log entry 11 has what R58 leaves open). -/

namespace Sys2Proof.Machine

/-- A register's name in text (R21, R58). -/
def Reg.text : Reg → String
  | .status => "STATUS"
  | .idx => "IDX"
  | .mexp => "MEXP"
  | .n => "N"
  | .pos1 => "POS1"
  | .sl1 => "SL1"
  | .sl2 => "SL2"
  | .sr1 => "SR1"
  | .sr2 => "SR2"
  | .msk1 => "MSK1"
  | .msk2 => "MSK2"
  | .msk3 => "MSK3"
  | .msk4 => "MSK4"
  | .parity1 => "PARITY1"
  | .parity2 => "PARITY2"
  | .parity3 => "PARITY3"
  | .parity4 => "PARITY4"
  | .mexpSel => "MEXP_SEL"

/-- A number in hexadecimal, with `0x` before it. -/
def hexText (n : Nat) : String := "0x" ++ String.ofList (Nat.toDigits 16 n)

/-- The text form of a command (R58): the mnemonic, then for SEED, PEEK and RDREG the operand as a decimal number. -/
def instrText : Instr → String
  | .seed s => "SEED " ++ toString s.toNat
  | .cert => "CERT"
  | .regen => "REGEN"
  | .pop32 => "POP32"
  | .pop64 => "POP64"
  | .next32 => "NEXT32"
  | .next64 => "NEXT64"
  | .peek j => "PEEK " ++ toString j.toNat
  | .rdreg r => "RDREG " ++ toString r.toNat

/-- The name of a fault (R129). -/
def SyncFault.text : SyncFault → String
  | .illegalCommand => "IllegalCommand"
  | .notSeeded => "NotSeeded"
  | .cursorOverrun => "CursorOverrun"
  | .addressRange => "AddressRange"

/-- The text form of a response (R58). -/
def Response.text : Response → String
  | .ok d => "-> OK " ++ hexText d.toNat
  | .fault f => "-> " ++ f.text

/-- The tokens of a line, less its comment (R58): blanks separate, and `,` and `*` stand for themselves. `cur` is the token
being read, last character first. -/
def tokens : (line cur : List Char) → List (List Char)
  | [], cur => if cur.isEmpty then [] else [cur.reverse]
  | c :: cs, cur =>
    let done := if cur.isEmpty then [] else [cur.reverse]
    if c = ';' then done
    else if c = ' ' ∨ c = '\t' then done ++ tokens cs []
    else if c = ',' ∨ c = '*' then done ++ [[c]] ++ tokens cs []
    else tokens cs (c :: cur)

/-- The value of one digit in a base up to 16. -/
def digit? (base : Nat) (c : Char) : Option Nat :=
  let v :=
    if '0' ≤ c ∧ c ≤ '9' then c.toNat - '0'.toNat
    else if 'a' ≤ c ∧ c ≤ 'f' then c.toNat - 'a'.toNat + 10
    else if 'A' ≤ c ∧ c ≤ 'F' then c.toNat - 'A'.toNat + 10
    else base
  if v < base then some v else none

/-- A non-empty row of digits in a base. -/
def digits? (base : Nat) (cs : List Char) : Option Nat :=
  if cs.isEmpty then none
  else cs.foldl (fun acc c => do some ((← acc) * base + (← digit? base c))) (some 0)

/-- An operand: "a decimal or `0x` hexadecimal unsigned number" (R58). -/
def number? : List Char → Option Nat
  | '0' :: 'x' :: cs => digits? 16 cs
  | cs => digits? 10 cs

/-- An operand that fits `ARG`. -/
def arg? (cs : List Char) : Option U32 := do
  let v ← number? cs
  if v < 2 ^ 32 then some (BitVec.ofNat 32 v) else none

/-- A byte operand of SEEDB. -/
def byte? (cs : List Char) : Option (BitVec 8) := do
  let v ← number? cs
  if v < 2 ^ 8 then some (BitVec.ofNat 8 v) else none

/-- The number of a register name (R58: "`RDREG STATUS` is `RDREG 0`"). -/
def regNumber? (cs : List Char) : Option U32 :=
  match Reg.all.findIdx? fun r => r.text.toList == cs with
  | some k => some (BitVec.ofNat 32 k)
  | none => none

/-- A command without an operand, by its mnemonic (R58). -/
def bare? (m : List Char) : Option Instr :=
  [Instr.cert, .regen, .pop32, .pop64, .next32, .next64].find? fun i => i.mnemonic.toList == m

/-- The commands one line of text stands for: none for an empty line or a comment, and the expansion of a pseudo-command
(R58, R59). -/
def readLine (line : String) : Option (List Instr) :=
  match tokens line.toList [] with
  | [] => some []
  | [m] => (bare? m).map fun i => [i]
  | [m, a] =>
    if m = "SEED".toList then (arg? a).map fun s => [.seed s]
    else if m = "PEEK".toList then (arg? a).map fun j => [.peek j]
    else if m = "RDREG".toList then ((arg? a).or (regNumber? a)).map fun r => [.rdreg r]
    else none
  | [m, ['*'], k] =>
    if m = "NEXT32".toList ∨ m = "NEXT64".toList then do
      let i ← bare? m
      let k ← number? k
      if 0 < k then some (i.times k) else none
    else none
  | [m, b0, [','], b1, [','], b2, [','], b3] =>
    if m = "SEEDB".toList then do
      some [Instr.seedb (← byte? b0) (← byte? b1) (← byte? b2) (← byte? b3)]
    else none
  | _ => none

end Sys2Proof.Machine
end

