-- ==== Sys2Proof/Tests/Slice0.lean ====
section
/-! SUPPORT. The model's own tests. Expected values are the spec's (95_test_vectors.md unless a rule is named), each about
one step; then, for every obligation with hypotheses, a witness that meets them. -/

namespace Sys2Proof.Tests
open Sys2Proof.Machine

/-! ### Well-formedness: each check refuses an ill-formed term -/

theorem test_wf_opcode_zero : CmdFields.wellFormed ⟨0x0, 0⟩ = false := by decide
theorem test_wf_opcode_high : CmdFields.wellFormed ⟨0xA, 0⟩ = false ∧ CmdFields.wellFormed ⟨0xF, 0xFFFFFFFF⟩ = false := by
  decide
theorem test_wf_argument : CmdFields.wellFormed ⟨0x2, 1⟩ = false ∧ CmdFields.wellFormed ⟨0x7, 0x80000000⟩ = false := by decide
theorem test_wf_argument_allowed :
    CmdFields.wellFormed ⟨0x1, 0xFFFFFFFF⟩ = true ∧ CmdFields.wellFormed ⟨0x9, 99⟩ = true := by decide

/-- The default entry of 607, for the tests to change. -/
def rom607 : RomEntry := RomTable.standard .m607

theorem test_wf_lag_zero : ¬RomEntry.WellFormed 5 { rom607 with pos1 := 0 } := by decide
theorem test_wf_lag_too_large : ¬RomEntry.WellFormed 5 { rom607 with pos1 := 5 } := by decide
theorem test_wf_lag_largest : RomEntry.WellFormed 5 { rom607 with pos1 := 4 } := by decide
theorem test_wf_parity_all_zero : ¬RomEntry.WellFormed 5 { rom607 with parity1 := 0, parity4 := 0 } := by decide

/-- R5: straps 10 to 15 build nothing. -/
theorem test_construct_refuses_strap :
    construct 10 RomTable.standard = .refused (.noSuchInstance 10) ∧
      construct 15 RomTable.standard = .refused (.noSuchInstance 15) := ⟨rfl, rfl⟩

/-- R64: the default table with a zero lag for 1279 is refused, for the strap of 607 too. -/
theorem test_construct_refuses_table :
    construct 0 (fun sel => if sel = .m1279 then { RomTable.standard sel with pos1 := 0 } else RomTable.standard sel) =
      .refused .illegalRomTable := rfl

/-! ### Decoding: words written from R47 and R48, and the table of section 2.7 -/

theorem test_decode_seed : decode 0b0001_00000000000000000000010011010010#36 = .instr (.seed 1234) := by decide
theorem test_decode_cert : decode 0b0010_00000000000000000000000000000000#36 = .instr .cert := by decide
theorem test_decode_regen : decode 0b0011_00000000000000000000000000000000#36 = .instr .regen := by decide
theorem test_decode_pop32 : decode 0b0100_00000000000000000000000000000000#36 = .instr .pop32 := by decide
theorem test_decode_pop64 : decode 0b0101_00000000000000000000000000000000#36 = .instr .pop64 := by decide
theorem test_decode_next32 : decode 0b0110_00000000000000000000000000000000#36 = .instr .next32 := by decide
theorem test_decode_next64 : decode 0b0111_00000000000000000000000000000000#36 = .instr .next64 := by decide
theorem test_decode_peek : decode 0b1000_00000000000000000000001001101111#36 = .instr (.peek 623) := by decide
theorem test_decode_rdreg : decode 0b1001_00000000000000000000000000010001#36 = .instr (.rdreg 17) := by decide

theorem test_decode_reserved_opcodes :
    [0x000000000#36, 0x012345678, 0xA00000000, 0xFFFFFFFFF].map (fun c => (decode c).instr?) =
      [none, none, none, none] := by decide

theorem test_decode_reserved_arguments :
    [0x200000001#36, 0x380000000, 0x600000001, 0x7FFFFFFFF].map (fun c => (decode c).instr?) =
      [none, none, none, none] := by decide

theorem test_encode : encode (.seed 0xFFFFFFFF) = 0x1FFFFFFFF ∧ encode (.peek 20) = 0x800000014 ∧
    encode (.rdreg 99) = 0x900000063 ∧ encode .pop64 = 0x500000000 := by decide

/-- The host's numbering: the whole word at once; bits 39 to 36 of a 40-bit number belong to no command word. -/
theorem test_table_word : decodeTableWord 40 0x600000000 = some .next32 ∧ decodeTableWord 36 0x1FFFFFFFF = some (.seed 0xFFFFFFFF) ∧
    decodeTableWord 40 0x1600000000 = none := by decide

theorem test_response_words :
    (Response.ok 0x5d47f5d7cd0d0032).word = 0x05D47F5D7CD0D0032#68 ∧
      (Response.fault .illegalCommand).word = 0x10000000000000000#68 ∧
      (Response.fault .addressRange).word = 0x40000000000000000#68 := by decide

/-! ### Text (R58, R59) -/

theorem test_text_commands : readLine "SEED 0x000004D2 ; a comment" = some [.seed 1234] ∧
    readLine "RDREG STATUS" = some [.rdreg 0] ∧ readLine "PEEK" = none := by decide
theorem test_text_pseudo : readLine "SEEDB 0x12, 0x34, 0x56, 0x78" = some [.seed 0x78563412] ∧
    readLine "NEXT32 * 3" = some [.next32, .next32, .next32] := by decide
theorem test_text_print : (Response.ok 0x14).text = "-> OK 0x14" ∧ (Response.fault .notSeeded).text = "-> NotSeeded" ∧
    instrText (.peek 7) = "PEEK 7" := by decide

/-! ### The recurrence (section 2.1, R79) -/

def opA : Word := 0x00000004_00000003_00000002_00000001
def opB : Word := 0x80000000_ffffffff_12345678_deadbeef
def opC : Word := 0x0f0e0d0c_0b0a0908_07060504_03020100
def opD : Word := 0x00000001_80000000_00004000_00003fff

theorem test_recur_19937 :
    recur (RomTable.standard .m19937) opA opB opC opD = 0x001b0a09_0c11f6f5_0805460d_fbe4d6a7 := by decide
/-- A byte shift of seven: across more than one lane. -/
theorem test_recur_86243 :
    recur (RomTable.standard .m86243) opA opB opC opD = 0x030f1e49_0e0b05f5_09170401_040ce615 := by decide

/-! ### Seeding and certification (sections 2.3, 2.4) -/

theorem test_iterate_logical_shift : iterate 0xc0000000 5 = 0x04169c34 ∧ iterate 0xffffffff 0xffffffff = 0x4fe1da6b := by decide

/-- `A0`, the array after `SEED 1234` on the 607 instance (section 2.2). -/
def a0 : List Word := [
  0xebb44f8f_f22bde9f_bc5448db_000004d2, 0x8516f26a_2b9eb427_a9db320f_b9894e40,
  0x10064132_0dc53d9b_e97bb6be_4a9f4b10, 0x84c87d2b_8e0b44ee_6e3c5361_8bb97ac6,
  0x004d8989_1b8e873e_58e58dbd_6633523d]

/-- `A1`, the array after one regeneration of `A0` (section 2.2). -/
def a1 : List Word := [
  0xa08264f7_e675cb70_aac92dec_474ff1a3, 0xdd42cedd_a4029656_be10b479_e4d166ed,
  0x45650683_5f63e9bf_78c4de73_20c716cd, 0x2c02f6b1_d6731635_621d2aec_d669b15d,
  0xf2086d4d_cbcf41f8_13193192_47448796]

/-- `A2`, the array after two (section 2.2). -/
def a2 : List Word := [
  0x61c0ba38_34d7c896_ad52515b_baaf1b4d, 0x5dfbacbe_1e9cf831_201b0d65_9d4047e7,
  0x1062f508_5cbfcf2d_5a9e1781_9c67ff53, 0xe7538fff_ff2a173d_19f6d86d_6fc841b8,
  0x783ec911_5ab7a0f0_52a6d817_6f8b2408]

theorem test_seed_expand : seedExpand 5 1234 = a0 := by decide
theorem test_regenerate_once : regenWords rom607 5 a0 = some a1 := by decide
theorem test_regenerate_twice : regenWords rom607 5 a1 = some a2 := by decide

theorem test_fold_19937 : certInner (RomTable.standard .m19937) 0xebb44f8f_f22bde9f_bc5448db_000004d2 = 0x03804684 ∧
    certFold 0x03804684 = 0x02ff84f8 := by decide

/-- Section 2.4's parity constants 0, 0x12000, 0, 0: lane 0 is skipped and bit 13 of lane 1 is flipped. -/
theorem test_certify_scans_lanes :
    certifyWords { rom607 with parity1 := 0, parity2 := 0x00012000, parity3 := 0, parity4 := 0 } a0 =
      some (a0.set 0 0xebb44f8f_f22bde9f_bc5468db_000004d2) := by decide

/-- Section 2.4's parity constants 0, 0, 6, 0: bit 1 of lane 2 is flipped. -/
theorem test_certify_lowest_bit :
    certifyWords { rom607 with parity1 := 0, parity2 := 0, parity3 := 6, parity4 := 0 } a0 =
      some (a0.set 0 0xebb44f8f_f22bde9d_bc5448db_000004d2) := by decide

/-- `A1` of the 19937 instance for seed 1234: draws 1 and 624 of section 1.1, through all 156 words. -/
def a1of19937 : Option (List Word) :=
  (seededArray (Config.standard .m19937) 1234).bind (regenWords (RomTable.standard .m19937) 156)

set_option maxRecDepth 20000 in
theorem test_conformance_19937 :
    a1of19937.map (fun sa => (memRead1 sa 0, memRead1 sa 623)) = some (some 0xcd0d0032, some 0x993b14e5) := by decide

/-! ### One command on a small instance -/

/-- The 607 instance, not seeded. -/
def fresh : State := State.resetOf (Config.standard .m607)

/-- The 607 instance, seeded, with a given array and cursor. -/
def ready (sa : List Word) (idx : Cursor) : State := { fresh with sa := sa, idx := idx, seeded := true }

/-- What a command leaves: array, cursor, STATUS and the responses. -/
def outcome (r : StepResult) : Option (List Word × Cursor × U32 × List Response) :=
  (next? r).map fun t => (t.sa, t.idx, t.status, t.responses)

theorem test_seed : outcome (exec (.seed 1234) fresh) = some (a0, 20, 1, [.ok 0]) := by decide
/-- P6: certification flips bit 0 for this seed. -/
theorem test_seed_corrected : ((next? (exec (.seed 0xffffffff) (ready a1 7))).bind fun t => t.sa[0]?) =
    some 0xc1331af4_eaf2f89e_4fe1da6d_fffffffe := by decide

/-- CERT in the Ready state flips the bit (section 2.4, last paragraph). -/
theorem test_cert_ready : outcome (exec .cert (ready a1 0)) =
    some (a1.set 0 0xa08264f7_e675cb70_aac92dec_474ff1a2, 0, 1, [.ok 0]) := by decide
theorem test_cert_unseeded : outcome (exec .cert fresh) = some (fresh.sa, 0, 4, [.fault .notSeeded]) := by decide

theorem test_regen : outcome (exec .regen (ready a0 20)) = some (a1, 0, 1, [.ok 0]) := by decide
theorem test_regen_unread_lanes : outcome (exec .regen (ready a1 7)) = some (a2, 0, 1, [.ok 0]) := by decide

theorem test_pop32_last_lane : outcome (exec .pop32 (ready a1 19)) = some (a1, 20, 1, [.ok 0xf2086d4d]) := by decide
theorem test_pop32_overrun : outcome (exec .pop32 (ready a1 20)) = some (a1, 20, 9, [.fault .cursorOverrun]) := by decide

/-- R110: lane 3 of one word and lane 0 of the next. -/
theorem test_pop64_straddles : outcome (exec .pop64 (ready a1 3)) = some (a1, 5, 1, [.ok 0xe4d166eda08264f7]) := by decide
theorem test_pop64_overrun : outcome (exec .pop64 (ready a1 19)) = some (a1, 19, 9, [.fault .cursorOverrun]) := by decide

theorem test_next32_last_lane : outcome (exec .next32 (ready a1 19)) = some (a1, 20, 1, [.ok 0xf2086d4d]) := by decide
theorem test_next32_regenerates : outcome (exec .next32 (ready a1 20)) = some (a2, 1, 1, [.ok 0xbaaf1b4d]) := by decide

theorem test_next64_forfeits : outcome (exec .next64 (ready a1 19)) = some (a2, 2, 1, [.ok 0xad52515bbaaf1b4d]) := by decide
theorem test_next64_last_pair : outcome (exec .next64 (ready a1 18)) = some (a1, 20, 1, [.ok 0xf2086d4dcbcf41f8]) := by decide

theorem test_peek : outcome (exec (.peek 19) (ready a0 20)) = some (a0, 20, 1, [.ok 0x004d8989]) := by decide
theorem test_peek_range : outcome (exec (.peek 20) (ready a0 20)) = some (a0, 20, 17, [.fault .addressRange]) := by decide

/-- Section 2.6: all eighteen registers after `SEED 1234`. -/
theorem test_rdreg_values :
    (List.range 19).map (fun r => (next? (exec (.rdreg (BitVec.ofNat 32 r)) (ready a0 20))).map (·.responses)) =
      ([0x1, 0x14, 0x25f, 0x5, 0x2, 0xf, 0x3, 0xd, 0x3, 0xfdff37ff, 0xef7f3f7d, 0xff777b7d, 0x7ff7fb2f, 0x1, 0x0, 0x0,
        0x5986f054, 0x0].map fun d => some [.ok d]) ++ [some [.fault .addressRange]] := by decide
/-- R132: AddressRange before NotSeeded for RDREG, NotSeeded before AddressRange for PEEK. -/
theorem test_fault_priority : outcome (exec (.rdreg 99) fresh) = some (fresh.sa, 0, 16, [.fault .addressRange]) ∧
    outcome (exec (.peek 0xffffffff) fresh) = some (fresh.sa, 0, 4, [.fault .notSeeded]) := by decide

/-- Section 2.8: POP32 with `ARG` 5 on an unseeded engine is IllegalCommand. -/
theorem test_step_reserved : outcome (step (fresh.withFetchWord 36 0x400000005)) =
    some (fresh.sa, 0, 2, [.fault .illegalCommand]) := by decide
/-- The host's probe: a table word becomes the next command. -/
theorem test_step_runs : outcome (step (fresh.withFetchWord 40 0x1000004D2)) = some (a0, 20, 1, [.ok 0]) := by decide
theorem test_step_rst : (next? (step { ready a1 7 with pending := [.rst] })).map (fun t => (t.seeded, t.status, t.responses)) =
    some (false, 0, []) := by decide

/-! ### Witnesses: for every obligation with hypotheses, a state and operands that meet them -/

theorem inv_fresh : fresh.Inv := ⟨by decide, by decide, by decide⟩
theorem inv_ready_0 : (ready a1 0).Inv := ⟨by decide, by decide, by decide⟩
theorem inv_ready_18 : (ready a1 18).Inv := ⟨by decide, by decide, by decide⟩
theorem inv_ready_19 : (ready a1 19).Inv := ⟨by decide, by decide, by decide⟩
theorem inv_ready_20 : (ready a1 20).Inv := ⟨by decide, by decide, by decide⟩

/-- The host presents a word, then another event. -/
def presented (c : CmdWord) (s : State) : State := { s with pending := [.command c, .rst] }

theorem inv_presented {s : State} (c : CmdWord) (h : s.Inv) : (presented c s).Inv := ⟨h.1, h.2, h.3⟩

theorem witness_ReservedWordsAreIllegal :
    (presented 0x600000001 fresh).pending = .command 0x600000001 :: [.rst] ∧
      decode 0x600000001 = .reserved (.argument 0x6 1) ∧ decode 0xA00000000 = .reserved (.opcode 0xA) := by decide

theorem witness_DecoderMatchesOpcodeTable :
    ∃ row ∈ opcodeTable, row.mnemonic = "RDREG" ∧ row.covers 0x9FFFFFFFF = true := by decide

theorem witness_StepRunsDecodedCommand :
    (presented 0x600000000 fresh).pending = .command 0x600000000 :: [.rst] ∧ decode 0x600000000 = .instr .next32 ∧
      fresh.pending = [] := by decide

theorem witness_OneResponsePerCommandInOrder :
    (presented 0x600000000 (ready a1 20)).Inv ∧ (∃ t, step (presented 0x600000000 (ready a1 20)) = .next t) ∧
      (∃ t, step { fresh with pending := [.rst] } = .next t) ∧ step fresh = .next fresh :=
  ⟨inv_presented _ inv_ready_20, ⟨_, rfl⟩, ⟨_, rfl⟩, rfl⟩

theorem witness_ResponseWordFormat : (presented 0x000000000 fresh).Inv ∧
    (presented 0x000000000 fresh).pending = .command 0x000000000 :: [.rst] ∧ (Response.fault .addressRange).code ≠ 0 :=
  ⟨inv_presented _ inv_fresh, rfl, by decide⟩

/-- Lanes 0, 3, 4, 19 and the first address outside. -/
theorem witness_LanesAreLittleEndian : a1[0 / 4]? = some (a1[0]) ∧ a1[19 / 4]? = some (a1[4]) ∧ 4 * a1.length ≤ 20 ∧
    memRead1 a1 3 = some 0xa08264f7 ∧ memRead1 a1 (3 + 1) = some 0xe4d166ed ∧
    memRead1 a1 18 = some 0xcbcf41f8 ∧ memRead1 a1 (18 + 1) = some 0xf2086d4d ∧ 16 % 4 = 0 := by decide

theorem witness_LaneWriteChangesThatLaneOnly : 0 < 4 * a1.length ∧ 19 < 4 * a1.length ∧ 4 < a1.length ∧ (18 : Nat) ≠ 19 ∧
    19 / 4 = 4 ∧ 15 / 4 ≠ 4 := by decide

theorem witness_RecurrenceLaneByLane : (0 < 4 ∧ 3 < 4) ∧ (1 ≤ 1 ∧ 1 ≤ 3) ∧ (1 ≤ 3 ∧ 3 ≤ 3) ∧
    (∀ m ≤ 1, lane (0x1_00000000_00000002_00000003 : Word) m = lane (0x00000002_00000003 : Word) m) ∧
    (∀ m, 2 ≤ m → m < 4 → lane (0x1_00000005_00000000_00000000 : Word) m = lane (0x1_00000005_00000002_00000003 : Word) m) := by
  refine ⟨by decide, by decide, by decide, by decide, fun m h1 h2 => ?_⟩
  have : m = 2 ∨ m = 3 := by omega
  rcases this with rfl | rfl <;> decide

theorem witness_RegenCommand : fresh.Inv ∧ fresh.seeded = false ∧ (ready a1 18).Inv ∧ (ready a1 18).seeded = true :=
  ⟨inv_fresh, rfl, inv_ready_18, rfl⟩

/-- The words 0, 1, 2 and 4 lie in every clause: `i = 0`, `i = 1`, before and after the wrap split at `N - POS1 = 3`. -/
theorem witness_RegenerationOperandValues : (ready a1 20).Inv ∧ (ready a1 20).seeded = true ∧ 0 < (ready a1 20).cfg.n ∧
    2 < (ready a1 20).cfg.n - (ready a1 20).cfg.rom.pos1.toNat ∧ ¬3 < (ready a1 20).cfg.n - (ready a1 20).cfg.rom.pos1.toNat ∧
    4 < (ready a1 20).cfg.n :=
  ⟨inv_ready_20, by decide, by decide, by decide, by decide, by decide⟩

theorem witness_RollingPairEqualsDirectIndexing : (ready a1 0).Inv ∧ regenDirect rom607 5 a1 = some a2 :=
  ⟨inv_ready_0, by decide⟩

theorem witness_RegenerationBijective : (Config.standard .m607).WellFormed ∧ 1 ≤ (Config.standard .m607).rom.sl2.toNat ∧
    a1.length = (Config.standard .m607).n := by decide

theorem witness_SeededArrayNeverZero : (presented 0x300000000 (ready a1 20)).Inv ∧
    1 ≤ (presented 0x300000000 (ready a1 20)).cfg.rom.sl2.toNat ∧
    (presented 0x300000000 (ready a1 20)).sa ≠ List.replicate 5 0#128 ∧
    (∃ t, step (presented 0x300000000 (ready a1 20)) = .next t ∧ t.seeded = true) ∧
    (∃ t, step (presented 0x100000000 fresh) = .next t ∧ t.seeded = true) :=
  ⟨inv_presented _ inv_ready_20, by decide, by decide, ⟨_, rfl, by decide⟩, ⟨_, rfl, by decide⟩⟩

theorem witness_SeedExpansionLaneForm : 0 < 1 ∧ 1 < 4 * 5 ∧ 0 < 19 ∧ 19 < 4 * 5 := by decide

theorem witness_SeedForgetsHistory : fresh.cfg = (ready a1 7).cfg ∧ fresh.sa ≠ (ready a1 7).sa ∧ fresh.idx ≠ (ready a1 7).idx := by
  decide

/-- A constant whose first non-zero lane is the last one, with its highest bit only; and the all-zero entry. -/
def romParity4 : RomEntry := { rom607 with parity1 := 0, parity2 := 0, parity3 := 0, parity4 := 0x80000000 }
def romNoParity : RomEntry := { rom607 with parity1 := 0, parity2 := 0, parity3 := 0, parity4 := 0 }

theorem witness_CorrectionFlipsOneFixedBit : (0x80000000 : U32) ≠ 0#32 ∧
    ¬(romParity4.parity1 = 0#32 ∧ romParity4.parity2 = 0#32 ∧ romParity4.parity3 = 0#32 ∧ romParity4.parity4 = 0#32) ∧
    (romNoParity.parity1 = 0#32 ∧ romNoParity.parity2 = 0#32 ∧ romNoParity.parity3 = 0#32 ∧ romNoParity.parity4 = 0#32) := by
  decide

/-- Even parity on `A1` (section 2.4), odd parity on `A0`. -/
theorem witness_CertCommand : fresh.Inv ∧ fresh.seeded = false ∧ (ready a1 0).Inv ∧ (ready a1 0).seeded = true ∧
    certParity (ready a1 0).cfg.rom a1[0] = false ∧ (ready a0 20).Inv ∧ certParity (ready a0 20).cfg.rom a0[0] = true :=
  ⟨inv_fresh, rfl, inv_ready_0, rfl, by decide, ⟨by decide, by decide, by decide⟩, by decide⟩

theorem witness_CertificationIdempotent : (ready a1 0).Inv ∧ (ready a1 0).seeded = true := ⟨inv_ready_0, rfl⟩

theorem witness_Pop32Command : fresh.Inv ∧ fresh.seeded = false ∧
    ((ready a1 20).Inv ∧ (ready a1 20).seeded = true ∧ (ready a1 20).idx.toNat = (ready a1 20).cfg.lanes) ∧
    ((ready a1 19).Inv ∧ (ready a1 19).seeded = true ∧ (ready a1 19).idx.toNat < (ready a1 19).cfg.lanes) :=
  ⟨inv_fresh, rfl, ⟨inv_ready_20, rfl, by decide⟩, inv_ready_19, rfl, by decide⟩

theorem witness_Pop64Command : fresh.Inv ∧ fresh.seeded = false ∧
    ((ready a1 19).Inv ∧ (ready a1 19).seeded = true ∧ (ready a1 19).cfg.lanes - 1 ≤ (ready a1 19).idx.toNat) ∧
    ((ready a1 18).Inv ∧ (ready a1 18).seeded = true ∧ (ready a1 18).idx.toNat ≤ (ready a1 18).cfg.lanes - 2) :=
  ⟨inv_fresh, rfl, ⟨inv_ready_19, rfl, by decide⟩, inv_ready_18, rfl, by decide⟩

theorem witness_Next32Command : fresh.Inv ∧ fresh.seeded = false ∧
    ((ready a1 19).Inv ∧ (ready a1 19).seeded = true ∧ (ready a1 19).idx.toNat < (ready a1 19).cfg.lanes) ∧
    ((ready a1 20).Inv ∧ (ready a1 20).seeded = true ∧ (ready a1 20).idx.toNat = (ready a1 20).cfg.lanes) :=
  ⟨inv_fresh, rfl, ⟨inv_ready_19, rfl, by decide⟩, inv_ready_20, rfl, by decide⟩

theorem witness_Next64Command : fresh.Inv ∧ fresh.seeded = false ∧
    ((ready a1 18).Inv ∧ (ready a1 18).seeded = true ∧ (ready a1 18).idx.toNat ≤ (ready a1 18).cfg.lanes - 2) ∧
    ((ready a1 19).Inv ∧ (ready a1 19).seeded = true ∧ (ready a1 19).cfg.lanes - 1 ≤ (ready a1 19).idx.toNat) :=
  ⟨inv_fresh, rfl, ⟨inv_ready_18, rfl, by decide⟩, inv_ready_19, rfl, by decide⟩

theorem witness_NextIsRegenThenPop :
    ((ready a1 19).Inv ∧ (ready a1 19).idx.toNat < (ready a1 19).cfg.lanes ∧
      (ready a1 19).cfg.lanes ≤ (ready a1 19).idx.toNat + 1) ∧
    ((ready a1 18).Inv ∧ (ready a1 18).idx.toNat + 1 < (ready a1 18).cfg.lanes) ∧
    ((ready a1 20).Inv ∧ (ready a1 20).idx.toNat = (ready a1 20).cfg.lanes) ∧ (ready a1 20).seeded = true :=
  ⟨⟨inv_ready_19, by decide, by decide⟩, ⟨inv_ready_18, by decide⟩, ⟨inv_ready_20, by decide⟩, rfl⟩

theorem witness_InterleavingNeverFaults : (∀ i ∈ [Instr.next32, .next64, .next32], i = .next32 ∨ i = .next64) ∧
    (ready a1 19).Inv ∧ (ready a1 19).seeded = true ∧ (ready a1 19).pending = [] :=
  ⟨by decide, inv_ready_19, rfl, rfl⟩

theorem witness_ReadsTakeFreshLanes :
    ((ready a1 20).Inv ∧ ∃ t, exec .next64 (ready a1 20) = .next t ∧
      t.responses = (ready a1 20).responses ++ [.ok 0xad52515bbaaf1b4d]) ∧
    ((ready a1 19).Inv ∧ ∃ t, exec .pop32 (ready a1 19) = .next t ∧
      t.responses = (ready a1 19).responses ++ [.ok 0xf2086d4d]) :=
  ⟨⟨inv_ready_20, _, rfl, by decide⟩, inv_ready_19, _, rfl, by decide⟩

/-- `q = 0`, and `q` on both sides of the boundary between draw `4N` and draw `4N + 1`. -/
theorem witness_OutputStream32 : fresh.Inv ∧ fresh.pending = [] ∧ 0 < 21 ∧ 19 < 21 ∧ 20 < 21 :=
  ⟨inv_fresh, rfl, by decide, by decide, by decide⟩

theorem witness_PeekCommand : fresh.Inv ∧ fresh.seeded = false ∧
    ((ready a1 20).Inv ∧ (ready a1 20).seeded = true ∧ 4 * (ready a1 20).cfg.n ≤ (20 : U32).toNat ∧
      (19 : U32).toNat < 4 * (ready a1 20).cfg.n) :=
  ⟨inv_fresh, rfl, inv_ready_20, rfl, by decide, by decide⟩

theorem witness_RdregCommand : 17 < (18 : U32).toNat ∧ ((1 : U32).toNat = 1 ∧ fresh.seeded = false) ∧
    ((17 : U32).toNat ≤ 17 ∧ ((17 : U32).toNat = 1 → fresh.seeded = true)) ∧
    ((1 : U32).toNat ≤ 17 ∧ ((1 : U32).toNat = 1 → (ready a1 20).seeded = true)) := by decide

theorem witness_FaultEntryChangesOnlyStickyBit :
    (presented 0x500000000 (ready a1 19)).pending = .command 0x500000000 :: [.rst] ∧
      ∃ t, step (presented 0x500000000 (ready a1 19)) = .next t ∧
        t.responses = (presented 0x500000000 (ready a1 19)).responses ++ [.fault .cursorOverrun] :=
  ⟨rfl, _, rfl, by decide⟩

theorem witness_FaultCauses : (presented 0x90000000A fresh).Inv ∧
    (presented 0x90000000A fresh).pending = .command 0x90000000A :: [.rst] := ⟨inv_presented _ inv_fresh, rfl⟩

/-- Each command at the edge of what its duty allows. -/
theorem witness_ObeyingHostSeesNoFault : fresh.Inv ∧ HostObeys (.seed 0) fresh ∧ HostObeys (.rdreg 17) fresh ∧
    (ready a1 20).Inv ∧ HostObeys .cert (ready a1 20) ∧ HostObeys .regen (ready a1 20) ∧ HostObeys .next32 (ready a1 20) ∧
    HostObeys .next64 (ready a1 20) ∧ HostObeys (.peek 19) (ready a1 20) ∧ HostObeys (.rdreg 1) (ready a1 20) ∧
    (ready a1 19).Inv ∧ HostObeys .pop32 (ready a1 19) ∧ (ready a1 18).Inv ∧ HostObeys .pop64 (ready a1 18) := by
  refine ⟨inv_fresh, trivial, ⟨by decide, by decide⟩, inv_ready_20, rfl, rfl, rfl, rfl, ⟨rfl, by decide⟩,
    ⟨by decide, fun _ => rfl⟩, inv_ready_19, ⟨rfl, by decide⟩, inv_ready_18, ⟨rfl, by decide⟩⟩

theorem witness_FaultBitsStickyAndInert :
    (∃ t, raise .addressRange fresh = .next t) ∧
    (∃ t, step { fresh with pending := [.rst] } = .next t) ∧
    ({ presented 0x100000007 fresh with fault := ⟨true, false, false, false⟩ }.fault.has .illegalCommand = true ∧
      ∃ t, step { presented 0x100000007 fresh with fault := ⟨true, false, false, false⟩ } = .next t) ∧
    ((∀ r, Instr.pop32 ≠ .rdreg r) ∧ ∃ t, exec .pop32 (ready a1 20) = .next t) :=
  ⟨⟨_, rfl⟩, ⟨_, rfl⟩, ⟨by decide, _, rfl⟩, ⟨by intro r; exact Instr.noConfusion, _, rfl⟩⟩

theorem witness_ResetAloneClears : { ready a1 7 with pending := [.rst] }.pending = [.rst] ∧
    (∃ t, step { ready a1 7 with pending := [.rst] } = .next t ∧ (ready a1 7).seeded = true ∧ t.seeded = false) ∧
    (∃ t, step { ready a1 7 with pending := [.rst], fault := ⟨false, true, false, false⟩ } = .next t ∧
      t.fault.has .notSeeded = false) ∧ fresh.pending = [] :=
  ⟨rfl, ⟨_, rfl, rfl, rfl⟩, ⟨_, rfl, rfl⟩, rfl⟩

theorem witness_StepKeepsInvariant : (presented 0x700000000 (ready a1 19)).Inv ∧
    ∃ t, step (presented 0x700000000 (ready a1 19)) = .next t := ⟨inv_presented _ inv_ready_19, _, rfl⟩

theorem witness_BlockNeverStops : (presented 0x700000000 (ready a1 19)).Inv := inv_presented _ inv_ready_19

theorem witness_ExponentFixedAtConstruction : 10 ≤ (10 : BitVec 4).toNat ∧ RomTable.standard.WellFormed ∧
    ∃ t, step (presented 0x100000000 fresh) = .next t := ⟨by decide, by decide, _, rfl⟩

theorem witness_WordsPerExponent : (presented 0x300000000 (ready a1 0)).Inv ∧
    ∃ t, step (presented 0x300000000 (ready a1 0)) = .next t := ⟨inv_presented _ inv_ready_0, _, rfl⟩

/-- One command for each way of R15: unchanged, advanced by 1 and by 2, after a regeneration (three), and by SEED. -/
theorem witness_CursorWriters : (ready a1 18).Inv ∧ (∃ t, exec (.peek 0) (ready a1 18) = .next t) ∧
    (∃ t, exec .pop64 (ready a1 18) = .next t ∧ t.seeded = true) ∧ (∃ t, exec .regen (ready a1 18) = .next t) ∧
    (∃ t, exec (.seed 5) (ready a1 18) = .next t) ∧ (ready a1 19).Inv ∧ (∃ t, exec .pop32 (ready a1 19) = .next t) ∧
    (∃ t, exec .next64 (ready a1 19) = .next t) ∧ (ready a1 20).Inv ∧ ∃ t, exec .next32 (ready a1 20) = .next t :=
  ⟨inv_ready_18, ⟨_, rfl⟩, ⟨_, rfl, rfl⟩, ⟨_, rfl⟩, ⟨_, rfl⟩, inv_ready_19, ⟨_, rfl⟩, ⟨_, rfl⟩, inv_ready_20, _, rfl⟩

theorem witness_ArrayWriters : (ready a1 0).Inv ∧ (∃ t, exec .cert (ready a1 0) = .next t) ∧
    (ready a1 19).Inv ∧ (ready a1 19).idx.toNat < (ready a1 19).cfg.lanes ∧ (∃ t, exec .next32 (ready a1 19) = .next t) ∧
    (ready a1 18).Inv ∧ (ready a1 18).idx.toNat + 1 < (ready a1 18).cfg.lanes ∧ (∃ t, exec .next64 (ready a1 18) = .next t) :=
  ⟨inv_ready_0, ⟨_, rfl⟩, inv_ready_19, by decide, ⟨_, rfl⟩, inv_ready_18, by decide, _, rfl⟩

/-- Two unseeded states of one instance with different arrays and cursors. -/
theorem witness_UnspecifiedPartsUnobservable : SameButUnspecified fresh { fresh with sa := a1, idx := 8000 } ∧
    fresh.sa ≠ a1 :=
  ⟨⟨inv_fresh, ⟨by decide, by decide, by decide⟩, rfl, rfl, rfl, rfl, rfl, by decide, by decide⟩, by decide⟩

end Sys2Proof.Tests
end

namespace Sys2Proof

/-! ### The exponents, their straps and `N` (R5, R6) -/

theorem MexpSel.mem_all (sel : MexpSel) : sel ∈ MexpSel.all := by
  cases sel <;> decide

/-- An exponent's own strap selects it (R5). -/
@[simp] theorem MexpSel.ofStrap?_strap (sel : MexpSel) : MexpSel.ofStrap? sel.strap = some sel := by
  cases sel <;> rfl

/-- The straps that select nothing are exactly 10 to 15 (R5). -/
theorem MexpSel.ofStrap?_eq_none_iff (strap : BitVec 4) :
    MexpSel.ofStrap? strap = none ↔ 10 ≤ strap.toNat :=
  List.getElem?_eq_none_iff

/-- No legal exponent is a multiple of 128: this is why floor plus one and ceiling agree in R6. -/
theorem MexpSel.mexp_mod_pos (sel : MexpSel) : 0 < sel.mexp % 128 := by
  cases sel <;> decide

theorem MexpSel.nWords_eq_ceil (sel : MexpSel) : sel.nWords = (sel.mexp + 127) / 128 := by
  have hmod := sel.mexp_mod_pos
  unfold MexpSel.nWords
  omega

end Sys2Proof

namespace Sys2Proof.Machine

/-! ### Construction (R5, R65) -/

theorem construct_of_ten_le {strap : BitVec 4} (h : 10 ≤ strap.toNat) (table : RomTable) :
    construct strap table = .refused (.noSuchInstance strap) := by
  rw [construct_eq, (MexpSel.ofStrap?_eq_none_iff strap).2 h]

theorem construct_strap {table : RomTable} (h : table.WellFormed) (sel : MexpSel) :
    construct sel.strap table = .next (State.resetOf (Config.ofTable table sel)) := by
  rw [construct_eq, MexpSel.ofStrap?_strap]
  exact if_pos h

/-! ### What each command can do

One inversion lemma per command, in terms of the operations it is made of. -/

section inversion
variable {s t : State}

/-- The check the seven commands that read the engine make first (R130): NotSeeded, or the rest of the command. -/
theorem seededGate_next {r : StepResult}
    (h : (if s.seeded = false then raise .notSeeded s else r) = .next t) :
    s.seeded = false ∧ raise .notSeeded s = .next t ∨ s.seeded = true ∧ r = .next t := by
  split at h
  · next hs => exact .inl ⟨hs, h⟩
  · next hs => exact .inr ⟨by simpa using hs, h⟩

/-- What regeneration on demand can do (R111, R112). -/
theorem regenerateAt_eq_some {threshold : Nat} :
    regenerateAt threshold s = some t ↔
      (s.idx.toNat < threshold ∧ t = s) ∨ (threshold ≤ s.idx.toNat ∧ regenerate s = some t) := by
  rcases Nat.lt_or_ge s.idx.toNat threshold with hlt | hge
  · simp [regenerateAt_of_lt hlt, hlt, eq_comm]
  · simp [regenerateAt_of_le hge, hge]

theorem execSeed_next {seed : U32} (h : execSeed seed s = .next t) :
    ∃ u, certify { s with
        sa := seedExpand s.cfg.n seed, idx := BitVec.ofNat 13 s.cfg.lanes, seeded := true } = some u ∧
      respond 0 u = .next t := by
  unfold execSeed at h
  split at h
  · cases h
  · next u hu => exact ⟨u, hu, h⟩

theorem execCert_next (h : execCert s = .next t) :
    s.seeded = false ∧ raise .notSeeded s = .next t ∨
      s.seeded = true ∧ ∃ u, certify s = some u ∧ respond 0 u = .next t := by
  refine (seededGate_next h).imp_right (And.imp_right fun h => ?_)
  split at h
  · cases h
  · next u hu => exact ⟨u, hu, h⟩

theorem execRegen_next (h : execRegen s = .next t) :
    s.seeded = false ∧ raise .notSeeded s = .next t ∨
      s.seeded = true ∧ ∃ u, regenerate s = some u ∧ respond 0 u = .next t := by
  refine (seededGate_next h).imp_right (And.imp_right fun h => ?_)
  split at h
  · cases h
  · next u hu => exact ⟨u, hu, h⟩

theorem execPop32_next (h : execPop32 s = .next t) :
    s.seeded = false ∧ raise .notSeeded s = .next t ∨ s.seeded = true ∧
      (s.cfg.lanes - 1 < s.idx.toNat ∧ raise .cursorOverrun s = .next t ∨
        s.idx.toNat ≤ s.cfg.lanes - 1 ∧ take32 s = .next t) := by
  refine (seededGate_next h).imp_right (And.imp_right fun h => ?_)
  split at h
  · next hi => exact .inl ⟨hi, h⟩
  · next hi => exact .inr ⟨Nat.not_lt.1 hi, h⟩

theorem execPop64_next (h : execPop64 s = .next t) :
    s.seeded = false ∧ raise .notSeeded s = .next t ∨ s.seeded = true ∧
      (s.cfg.lanes - 2 < s.idx.toNat ∧ raise .cursorOverrun s = .next t ∨
        s.idx.toNat ≤ s.cfg.lanes - 2 ∧ take64 s = .next t) := by
  refine (seededGate_next h).imp_right (And.imp_right fun h => ?_)
  split at h
  · next hi => exact .inl ⟨hi, h⟩
  · next hi => exact .inr ⟨Nat.not_lt.1 hi, h⟩

theorem execNext32_next (h : execNext32 s = .next t) :
    s.seeded = false ∧ raise .notSeeded s = .next t ∨
      s.seeded = true ∧ ∃ u, regenerateAt s.cfg.lanes s = some u ∧ take32 u = .next t := by
  refine (seededGate_next h).imp_right (And.imp_right fun h => ?_)
  split at h
  · cases h
  · next u hu => exact ⟨u, hu, h⟩

theorem execNext64_next (h : execNext64 s = .next t) :
    s.seeded = false ∧ raise .notSeeded s = .next t ∨
      s.seeded = true ∧ ∃ u, regenerateAt (s.cfg.lanes - 1) s = some u ∧ take64 u = .next t := by
  refine (seededGate_next h).imp_right (And.imp_right fun h => ?_)
  split at h
  · cases h
  · next u hu => exact ⟨u, hu, h⟩

/-- PEEK either raises a fault or answers lane `j` (R123). -/
theorem execPeek_next {j : U32} (h : execPeek j s = .next t) :
    s.seeded = false ∧ raise .notSeeded s = .next t ∨ s.seeded = true ∧
      (s.cfg.lanes ≤ j.toNat ∧ raise .addressRange s = .next t ∨
        j.toNat < s.cfg.lanes ∧
          ∃ v, s.lane? j.toNat = some v ∧ respond (v.setWidth 64) s = .next t) := by
  refine (seededGate_next h).imp_right (And.imp_right fun h => ?_)
  split at h
  · next hj => exact .inl ⟨hj, h⟩
  · next hj =>
    refine .inr ⟨Nat.not_le.1 hj, ?_⟩
    split at h
    · cases h
    · next v hv => exact ⟨v, hv, h⟩

/-- RDREG either raises a fault or answers the register's value (R125). -/
theorem execRdreg_next {r : U32} (h : execRdreg r s = .next t) :
    Reg.ofNumber? r.toNat = none ∧ raise .addressRange s = .next t ∨
      ∃ reg, Reg.ofNumber? r.toNat = some reg ∧
        (reg = .idx ∧ s.seeded = false ∧ raise .notSeeded s = .next t ∨
          (reg = .idx → s.seeded = true) ∧ respond ((s.reg reg).setWidth 64) s = .next t) := by
  unfold execRdreg at h
  split at h
  · next hr => exact .inl ⟨hr, h⟩
  · next reg hr =>
    refine .inr ⟨reg, hr, ?_⟩
    split at h
    · next hg => exact .inl ⟨hg.1, hg.2, h⟩
    · next hg => exact .inr ⟨fun hi => by simpa [hi] using hg, h⟩

end inversion

/-! ### Every step keeps the configuration and the size of the array (R5, R6, R13) -/

/-- `t` has the configuration of `s`, and an array of `N` words if `s` has one. -/
structure SameShape (s t : State) : Prop where
  cfg_eq : t.cfg = s.cfg
  sa_length : s.sa.length = s.cfg.n → t.sa.length = t.cfg.n

namespace SameShape
variable {s t u : State}

theorem refl (s : State) : SameShape s s := ⟨rfl, id⟩

theorem trans (h₁ : SameShape s t) (h₂ : SameShape t u) : SameShape s u :=
  ⟨h₂.cfg_eq.trans h₁.cfg_eq, h₂.sa_length ∘ h₁.sa_length⟩

theorem of_respond {d : U64} (h : respond d s = .next t) : SameShape s t := by
  rw [respond_eq_next] at h
  exact h ▸ ⟨rfl, id⟩

theorem of_raise {f : SyncFault} (h : raise f s = .next t) : SameShape s t := by
  rw [raise_eq_next] at h
  exact h ▸ ⟨rfl, id⟩

theorem of_applyReset (s : State) : SameShape s (applyReset s) := ⟨rfl, fun _ => applyReset_sa_length s⟩

theorem of_take32 (h : take32 s = .next t) : SameShape s t := by
  obtain ⟨v, -, rfl⟩ := take32_next h
  exact ⟨rfl, id⟩

theorem of_take64 (h : take64 s = .next t) : SameShape s t := by
  obtain ⟨v, -, rfl⟩ := take64_next h
  exact ⟨rfl, id⟩

theorem of_regenerate (h : regenerate s = some t) : SameShape s t := by
  obtain ⟨sa', hr, rfl⟩ := regenerate_eq_some.1 h
  exact ⟨rfl, fun hlen => regenWords_length hlen hr⟩

theorem of_regenerateAt {threshold : Nat} (h : regenerateAt threshold s = some t) : SameShape s t := by
  rcases regenerateAt_eq_some.1 h with ⟨-, rfl⟩ | ⟨-, hr⟩
  · exact refl _
  · exact of_regenerate hr

theorem of_certify (h : certify s = some t) : SameShape s t := by
  obtain ⟨sa', hc, rfl⟩ := certify_eq_some.1 h
  refine ⟨rfl, fun hlen => ?_⟩
  have hpos : 0 < s.sa.length := by have := five_le_n s.cfg; omega
  obtain ⟨sa'', hc', hlen', -⟩ := certifyWords_total s.cfg.rom hpos
  cases hc.symm.trans hc'
  exact hlen'.trans hlen

/-- SEED fills an array of `N` words whatever stood there before (R95), and certification keeps its length. -/
theorem of_execSeed {seed : U32} (h : execSeed seed s = .next t) : SameShape s t := by
  obtain ⟨u, hc, h⟩ := execSeed_next h
  have hexpand : SameShape s { s with
      sa := seedExpand s.cfg.n seed, idx := BitVec.ofNat 13 s.cfg.lanes, seeded := true } :=
    ⟨rfl, fun _ => seedExpand_length _ _⟩
  exact hexpand.trans ((of_certify hc).trans (of_respond h))

theorem of_exec {i : Instr} (h : exec i s = .next t) : SameShape s t := by
  cases i with
  | seed x => exact of_execSeed h
  | cert =>
    rcases execCert_next h with ⟨-, h⟩ | ⟨-, u, hc, h⟩
    · exact of_raise h
    · exact (of_certify hc).trans (of_respond h)
  | regen =>
    rcases execRegen_next h with ⟨-, h⟩ | ⟨-, u, hr, h⟩
    · exact of_raise h
    · exact (of_regenerate hr).trans (of_respond h)
  | pop32 =>
    rcases execPop32_next h with ⟨-, h⟩ | ⟨-, ⟨-, h⟩ | ⟨-, h⟩⟩
    · exact of_raise h
    · exact of_raise h
    · exact of_take32 h
  | pop64 =>
    rcases execPop64_next h with ⟨-, h⟩ | ⟨-, ⟨-, h⟩ | ⟨-, h⟩⟩
    · exact of_raise h
    · exact of_raise h
    · exact of_take64 h
  | next32 =>
    rcases execNext32_next h with ⟨-, h⟩ | ⟨-, u, hr, h⟩
    · exact of_raise h
    · exact (of_regenerateAt hr).trans (of_take32 h)
  | next64 =>
    rcases execNext64_next h with ⟨-, h⟩ | ⟨-, u, hr, h⟩
    · exact of_raise h
    · exact (of_regenerateAt hr).trans (of_take64 h)
  | peek j =>
    rcases execPeek_next h with ⟨-, h⟩ | ⟨-, ⟨-, h⟩ | ⟨-, v, -, h⟩⟩
    · exact of_raise h
    · exact of_raise h
    · exact of_respond h
  | rdreg r =>
    rcases execRdreg_next h with ⟨-, h⟩ | ⟨reg, -, ⟨-, -, h⟩ | ⟨-, h⟩⟩
    · exact of_raise h
    · exact of_raise h
    · exact of_respond h

/-- Taking the next event off the port keeps the shape, and so does whatever the step then does. -/
theorem of_step (h : step s = .next t) : SameShape s t := by
  have htake (rest : List HostEvent) : SameShape s { s with pending := rest } := ⟨rfl, id⟩
  rcases step_cases s with ⟨-, hs⟩ | ⟨rest, -, hs⟩ | ⟨c, rest, i, -, -, hs⟩ | ⟨c, rest, why, -, -, hs⟩
  · cases hs.symm.trans h
    exact refl s
  · cases hs.symm.trans h
    exact (htake rest).trans (of_applyReset _)
  · exact (htake rest).trans (of_exec (hs.symm.trans h))
  · exact (htake rest).trans (of_raise (hs.symm.trans h))

end SameShape

/-! ### The statements -/

/-- Settles O48: construction selects by the strap, and every step keeps the configuration (`SameShape.of_step`). -/
theorem exponentFixedAtConstruction : Obligations.ExponentFixedAtConstruction := by
  unfold Obligations.ExponentFixedAtConstruction
  refine ⟨by decide, by decide, ?_, ?_, ?_, ?_⟩
  · exact fun sel => ⟨sel.mem_all, sel.ofStrap?_strap⟩
  · exact fun strap table h => construct_of_ten_le h table
  · exact fun sel table h => ⟨_, construct_strap h sel, rfl, rfl⟩
  · exact fun s t h => (SameShape.of_step h).cfg_eq

/-- Settles O49: no exponent is a multiple of 128, and every step keeps the array's `N` words (`SameShape.of_step`). -/
theorem wordsPerExponent : Obligations.WordsPerExponent := by
  unfold Obligations.WordsPerExponent
  refine ⟨by decide, ?_, ?_, ?_⟩
  · exact fun sel => ⟨rfl, sel.nWords_eq_ceil⟩
  · exact fun cfg => ⟨rfl, rfl⟩
  · intro s t hinv h
    have hshape := SameShape.of_step h
    rw [hshape.sa_length hinv.sa_length, hshape.cfg_eq, hinv.sa_length]

end Sys2Proof.Machine

namespace Sys2Proof.Machine

/-! ### STATUS and the values after reset (R18, R25) -/

/-- One more bit below a register view (R18). -/
theorem toNat_append_ofBool {n : Nat} (x : BitVec n) (b : Bool) :
    (x ++ BitVec.ofBool b).toNat = 2 * x.toNat + b.toNat := by
  have h : (BitVec.concat x b).toNat = x.toNat * 2 + b.toNat := BitVec.toNat_concat x b
  exact h.trans (by omega)

theorem status_toNat (s : State) :
    s.status.toNat = s.seeded.toNat + 2 * s.fault.illegal.toNat + 4 * s.fault.notSeeded.toNat
      + 8 * s.fault.overrun.toNat + 16 * s.fault.range.toNat := by
  simp only [State.status, toNat_append_ofBool, BitVec.toNat_ofNat]
  omega

theorem status_resetOf (cfg : Config) : (State.resetOf cfg).status = 0 :=
  BitVec.eq_of_toNat_eq (status_toNat _)

theorem standard_wellFormed (sel : MexpSel) : (Config.standard sel).WellFormed := by
  cases sel <;> decide

theorem resetOf_inv {cfg : Config} (h : cfg.WellFormed) : (State.resetOf cfg).Inv :=
  ⟨h, resetOf_sa_length cfg, nofun⟩

/-! ### One step, by the event at the port -/

section step
variable {s : State} {rest : List HostEvent} {c : CmdWord}

theorem step_nil (h : s.pending = []) : step s = .next s := by
  simp only [step, h]

theorem step_rst (h : s.pending = .rst :: rest) : step s = .next (applyReset { s with pending := rest }) := by
  simp only [step, h]

theorem step_instr {i : Instr} (h : s.pending = .command c :: rest) (hd : decode c = .instr i) :
    step s = exec i { s with pending := rest } := by
  simp only [step, h, hd]

theorem step_reserved {why : Reserved} (h : s.pending = .command c :: rest) (hd : decode c = .reserved why) :
    step s = raise .illegalCommand { s with pending := rest } := by
  simp only [step, h, hd]

theorem run_succ {t : State} (h : step s = .next t) (k : Nat) :
    Host.Core.run core (k + 1) s = Host.Core.run core k t := by
  have h : core.step s = .next t := h
  simp only [Host.Core.run, h]

end step

/-! ### How each command evaluates -/

section forward
variable {s u : State}

/-- Of an engine that is not seeded every command but SEED and RDREG raises NotSeeded first (R130, R132). -/
theorem exec_of_not_seeded {i : Instr} (h : s.seeded = false) (hseed : ∀ x, i ≠ .seed x) (hreg : ∀ r, i ≠ .rdreg r) :
    exec i s = raise .notSeeded s := by
  cases i with
  | seed x => exact absurd rfl (hseed x)
  | rdreg r => exact absurd rfl (hreg r)
  | _ => exact if_pos h

theorem execSeed_of_certify {x : U32}
    (h : certify { s with sa := seedExpand s.cfg.n x, idx := BitVec.ofNat 13 s.cfg.lanes, seeded := true } = some u) :
    execSeed x s = respond 0 u := by
  simp only [execSeed, h]

theorem execCert_of_certify (hs : s.seeded = true) (h : certify s = some u) : execCert s = respond 0 u := by
  simp [execCert, hs, h]

theorem execRegen_of_regenerate (hs : s.seeded = true) (h : regenerate s = some u) : execRegen s = respond 0 u := by
  simp [execRegen, hs, h]

theorem execPop32_of_le (hs : s.seeded = true) (h : s.idx.toNat ≤ s.cfg.lanes - 1) : execPop32 s = take32 s := by
  simp [execPop32, hs, Nat.not_lt.2 h]

theorem execPop32_of_lt (hs : s.seeded = true) (h : s.cfg.lanes - 1 < s.idx.toNat) :
    execPop32 s = raise .cursorOverrun s := by
  simp [execPop32, hs, h]

theorem execPop64_of_le (hs : s.seeded = true) (h : s.idx.toNat ≤ s.cfg.lanes - 2) : execPop64 s = take64 s := by
  simp [execPop64, hs, Nat.not_lt.2 h]

theorem execPop64_of_lt (hs : s.seeded = true) (h : s.cfg.lanes - 2 < s.idx.toNat) :
    execPop64 s = raise .cursorOverrun s := by
  simp [execPop64, hs, h]

theorem execNext32_of_regenerateAt (hs : s.seeded = true) (h : regenerateAt s.cfg.lanes s = some u) :
    execNext32 s = take32 u := by
  simp [execNext32, hs, h]

theorem execNext64_of_regenerateAt (hs : s.seeded = true) (h : regenerateAt (s.cfg.lanes - 1) s = some u) :
    execNext64 s = take64 u := by
  simp [execNext64, hs, h]

theorem execPeek_of_le {j : U32} (hs : s.seeded = true) (h : s.cfg.lanes ≤ j.toNat) :
    execPeek j s = raise .addressRange s := by
  simp [execPeek, hs, h]

theorem execPeek_of_lane {j : U32} {v : U32} (hs : s.seeded = true) (hj : j.toNat < s.cfg.lanes)
    (hv : s.lane? j.toNat = some v) : execPeek j s = respond (v.setWidth 64) s := by
  have hv : memRead1 s.sa j.toNat = some v := hv
  simp [execPeek, hs, hj, hv]

theorem execRdreg_of_none {r : U32} (h : Reg.ofNumber? r.toNat = none) : execRdreg r s = raise .addressRange s := by
  simp only [execRdreg, h]

theorem execRdreg_of_idx {r : U32} (h : Reg.ofNumber? r.toNat = some .idx) (hs : s.seeded = false) :
    execRdreg r s = raise .notSeeded s := by
  simp [execRdreg, h, hs]

theorem execRdreg_of_reg {r : U32} {reg : Reg} (h : Reg.ofNumber? r.toNat = some reg)
    (hreg : reg = .idx → s.seeded = true) : execRdreg r s = respond ((s.reg reg).setWidth 64) s := by
  have hgate : ¬(reg = .idx ∧ s.seeded = false) := fun ⟨hi, hs⟩ => by simp [hreg hi] at hs
  simp only [execRdreg, h, if_neg hgate]

end forward

/-! ### What a command does depends on nothing but the configuration, the phase and the array and cursor of a seeded engine

An `Effect` says what a command answers and what it writes, apart from the state it is run in. -/

/-- What one command does: it raises a fault, or answers and leaves the engine as it is, or answers and leaves a seeded
engine with the given array and cursor. -/
inductive Effect
  | raised (f : SyncFault)
  | observed (d : U64)
  | written (sa : List Word) (idx : Cursor) (d : U64)

/-- The state an effect leaves. -/
def Effect.on : Effect → State → State
  | .raised f, s => answer (.fault f) { s with fault := s.fault.raised f }
  | .observed d, s => answer (.ok d) s
  | .written sa idx d, s => answer (.ok d) { s with sa := sa, idx := idx, seeded := true }

theorem raise_eq_raised (f : SyncFault) (s : State) : raise f s = .next ((Effect.raised f).on s) := rfl

theorem respond_eq_observed (d : U64) (s : State) : respond d s = .next ((Effect.observed d).on s) := rfl

/-- A command that answers after writing the array or the cursor of a seeded engine leaves it seeded. -/
theorem respond_eq_written {s : State} (hs : s.seeded = true) (sa : List Word) (idx : Cursor) (d : U64) :
    respond d { s with sa := sa, idx := idx } = .next ((Effect.written sa idx d).on s) := by
  simp [Effect.on, answer, hs]

/-- A sticky bit survives every effect (R17). -/
theorem Effect.has_on {e : Effect} {s : State} {f : SyncFault} (h : s.fault.has f = true) :
    (e.on s).fault.has f = true := by
  cases e with
  | raised g => simp [Effect.on, has_raised, h]
  | observed d => exact h
  | written sa idx d => exact h

/-- An effect is the same with other sticky bits before it, up to the sticky bits after it. -/
theorem Effect.on_with_fault (e : Effect) (s : State) (b : FaultBits) :
    ∃ b', e.on { s with fault := b } = { e.on s with fault := b' } := by
  cases e with
  | raised f => exact ⟨b.raised f, rfl⟩
  | observed d => exact ⟨b, rfl⟩
  | written sa idx d => exact ⟨b, rfl⟩

/-- `u` has the configuration and the phase of `s`, and, of a seeded engine, the array and the cursor; and for RDREG, which
reads STATUS, the sticky bits. -/
structure SeesSame (i : Instr) (s u : State) : Prop where
  cfg_eq : u.cfg = s.cfg
  seeded_eq : u.seeded = s.seeded
  sa_eq : s.seeded = true → u.sa = s.sa
  idx_eq : s.seeded = true → u.idx = s.idx
  fault_eq : ∀ r, i = .rdreg r → u.fault = s.fault

theorem SeesSame.refl (i : Instr) (s : State) : SeesSame i s s := ⟨rfl, rfl, fun _ => rfl, fun _ => rfl, fun _ _ => rfl⟩

/-- `u` with the configuration, the array, the cursor and the phase of `s`. -/
def State.withEngineOf (u s : State) : State :=
  { u with cfg := s.cfg, sa := s.sa, idx := s.idx, seeded := s.seeded }

/-- Of a seeded engine all of it is seen. -/
theorem SeesSame.withEngineOf_eq {i : Instr} {s u : State} (h : SeesSame i s u) (hs : s.seeded = true) :
    u.withEngineOf s = u := by
  simp only [State.withEngineOf, ← h.cfg_eq, ← h.sa_eq hs, ← h.idx_eq hs, ← h.seeded_eq]

section effect
variable {s t u : State}

/-- The 32-bit read delivers a lane of the array and the cursor, whatever else the state holds. -/
theorem take32_effect (h : take32 s = .next t) :
    ∃ d, ∀ u : State, take32 { u with sa := s.sa, idx := s.idx } =
      respond d { u with sa := s.sa, idx := s.idx + 1 } := by
  obtain ⟨v, hv, -⟩ := take32_next h
  have hv : memRead1 s.sa s.idx.toNat = some v := hv
  exact ⟨v.setWidth 64, fun u => by simp only [take32, hv]⟩

theorem take64_effect (h : take64 s = .next t) :
    ∃ d, ∀ u : State, take64 { u with sa := s.sa, idx := s.idx } =
      respond d { u with sa := s.sa, idx := s.idx + 2 } := by
  obtain ⟨v, hv, -⟩ := take64_next h
  exact ⟨v, fun u => by simp only [take64, hv]⟩

theorem regenerate_congr (h : regenerate s = some t) (hc : u.cfg = s.cfg) (hsa : u.sa = s.sa) :
    regenerate u = some { u with sa := t.sa, idx := t.idx } := by
  obtain ⟨sa', hr, rfl⟩ := regenerate_eq_some.1 h
  exact regenerate_eq_some.2 ⟨sa', by rw [hc, hsa]; exact hr, rfl⟩

theorem regenerateAt_congr {threshold : Nat} (h : regenerateAt threshold s = some t) (hc : u.cfg = s.cfg)
    (hsa : u.sa = s.sa) (hidx : u.idx = s.idx) :
    regenerateAt threshold u = some { u with sa := t.sa, idx := t.idx } := by
  rcases regenerateAt_eq_some.1 h with ⟨hlt, rfl⟩ | ⟨hle, hr⟩
  · rw [regenerateAt_of_lt (hidx ▸ hlt), ← hsa, ← hidx]
  · rw [regenerateAt_of_le (hidx ▸ hle), regenerate_congr hr hc hsa]

theorem certify_congr (h : certify s = some t) (hc : u.cfg = s.cfg) (hsa : u.sa = s.sa) :
    certify u = some { u with sa := t.sa } := by
  obtain ⟨sa', hw, rfl⟩ := certify_eq_some.1 h
  exact certify_eq_some.2 ⟨sa', by rw [hc, hsa]; exact hw, rfl⟩

/-- SEED looks at the configuration only (R94, R105). -/
theorem execSeed_effect {x : U32} (h : execSeed x s = .next t) :
    ∃ e : Effect, ∀ u : State, u.cfg = s.cfg → execSeed x u = .next (e.on u) := by
  obtain ⟨v, hc, -⟩ := execSeed_next h
  refine ⟨.written v.sa (BitVec.ofNat 13 s.cfg.lanes) 0, fun u hu => ?_⟩
  rw [← hu] at hc ⊢
  exact execSeed_of_certify (certify_congr hc rfl rfl)

theorem reg_congr {reg : Reg} (hc : u.cfg = s.cfg) (hs : u.seeded = s.seeded) (hf : u.fault = s.fault)
    (hi : reg = .idx → u.idx = s.idx) : u.reg reg = s.reg reg := by
  cases reg with
  | idx => simp only [State.reg, hi rfl]
  | status => simp only [State.reg, State.status, hs, hf]
  | _ => simp only [State.reg, hc]

/-- RDREG looks at the configuration, at STATUS, and at the cursor of a seeded engine (R125). -/
theorem execRdreg_effect {r : U32} (h : execRdreg r s = .next t) :
    ∃ e : Effect, ∀ u, SeesSame (.rdreg r) s u → execRdreg r u = .next (e.on u) := by
  rcases execRdreg_next h with ⟨hr, -⟩ | ⟨reg, hr, ⟨rfl, hs, -⟩ | ⟨hidx, -⟩⟩
  · exact ⟨.raised .addressRange, fun u _ => execRdreg_of_none hr⟩
  · exact ⟨.raised .notSeeded, fun u hu => execRdreg_of_idx hr (hu.seeded_eq.trans hs)⟩
  · refine ⟨.observed ((s.reg reg).setWidth 64), fun u hu => ?_⟩
    rw [execRdreg_of_reg hr fun hi => hu.seeded_eq.trans (hidx hi),
      reg_congr hu.cfg_eq hu.seeded_eq (hu.fault_eq r rfl) fun hi => hu.idx_eq (hidx hi)]
    rfl

/-- A seeded engine's commands but RDREG look at the configuration, the array and the cursor only. -/
theorem exec_effect_of_seeded {i : Instr} (hs : s.seeded = true) (hreg : ∀ r, i ≠ .rdreg r) (h : exec i s = .next t) :
    ∃ e : Effect, ∀ u : State, exec i (u.withEngineOf s) = .next (e.on (u.withEngineOf s)) := by
  have hs' (u : State) : (u.withEngineOf s).seeded = true := hs
  have hgate {P : Prop} : ¬(s.seeded = false ∧ P) := by simp [hs]
  cases i with
  | seed x =>
    obtain ⟨e, he⟩ := execSeed_effect h
    exact ⟨e, fun u => he _ rfl⟩
  | rdreg r => exact absurd rfl (hreg r)
  | cert =>
    obtain ⟨-, v, hc, -⟩ := (execCert_next h).resolve_left hgate
    exact ⟨.written v.sa s.idx 0, fun u =>
      (execCert_of_certify (hs' u) (certify_congr hc rfl rfl)).trans (respond_eq_written (hs' u) ..)⟩
  | regen =>
    obtain ⟨-, v, hr, -⟩ := (execRegen_next h).resolve_left hgate
    exact ⟨.written v.sa v.idx 0, fun u =>
      (execRegen_of_regenerate (hs' u) (regenerate_congr hr rfl rfl)).trans (respond_eq_written (hs' u) ..)⟩
  | pop32 =>
    obtain ⟨-, ⟨hi, -⟩ | ⟨hi, h⟩⟩ := (execPop32_next h).resolve_left hgate
    · exact ⟨.raised .cursorOverrun, fun u => execPop32_of_lt hs hi⟩
    · obtain ⟨d, hd⟩ := take32_effect h
      exact ⟨.written s.sa (s.idx + 1) d, fun u =>
        (execPop32_of_le (hs' u) hi).trans ((hd (u.withEngineOf s)).trans (respond_eq_written (hs' u) ..))⟩
  | pop64 =>
    obtain ⟨-, ⟨hi, -⟩ | ⟨hi, h⟩⟩ := (execPop64_next h).resolve_left hgate
    · exact ⟨.raised .cursorOverrun, fun u => execPop64_of_lt hs hi⟩
    · obtain ⟨d, hd⟩ := take64_effect h
      exact ⟨.written s.sa (s.idx + 2) d, fun u =>
        (execPop64_of_le (hs' u) hi).trans ((hd (u.withEngineOf s)).trans (respond_eq_written (hs' u) ..))⟩
  | next32 =>
    obtain ⟨-, v, hr, h⟩ := (execNext32_next h).resolve_left hgate
    obtain ⟨d, hd⟩ := take32_effect h
    exact ⟨.written v.sa (v.idx + 1) d, fun u =>
      (execNext32_of_regenerateAt (hs' u) (regenerateAt_congr hr rfl rfl rfl)).trans
        ((hd (u.withEngineOf s)).trans (respond_eq_written (hs' u) ..))⟩
  | next64 =>
    obtain ⟨-, v, hr, h⟩ := (execNext64_next h).resolve_left hgate
    obtain ⟨d, hd⟩ := take64_effect h
    exact ⟨.written v.sa (v.idx + 2) d, fun u =>
      (execNext64_of_regenerateAt (hs' u) (regenerateAt_congr hr rfl rfl rfl)).trans
        ((hd (u.withEngineOf s)).trans (respond_eq_written (hs' u) ..))⟩
  | peek j =>
    obtain ⟨-, ⟨hj, -⟩ | ⟨hj, v, hv, -⟩⟩ := (execPeek_next h).resolve_left hgate
    · exact ⟨.raised .addressRange, fun u => execPeek_of_le hs hj⟩
    · exact ⟨.observed (v.setWidth 64), fun u => execPeek_of_lane hs hj hv⟩

/-- A command that answers has one effect in all states that look the same to it. -/
theorem exec_effect {i : Instr} (h : exec i s = .next t) :
    ∃ e : Effect, ∀ u, SeesSame i s u → exec i u = .next (e.on u) := by
  by_cases hreg : ∃ r, i = .rdreg r
  · obtain ⟨r, rfl⟩ := hreg
    exact execRdreg_effect h
  by_cases hseed : ∃ x, i = .seed x
  · obtain ⟨x, rfl⟩ := hseed
    obtain ⟨e, he⟩ := execSeed_effect h
    exact ⟨e, fun u hu => he u hu.cfg_eq⟩
  simp only [not_exists] at hreg hseed
  cases hs : s.seeded with
  | true =>
    obtain ⟨e, he⟩ := exec_effect_of_seeded hs hreg h
    exact ⟨e, fun u hu => hu.withEngineOf_eq hs ▸ he u⟩
  | false =>
    exact ⟨.raised .notSeeded, fun u hu => exec_of_not_seeded (hu.seeded_eq.trans hs) hseed hreg⟩

/-- The state a command leaves is its effect on the state it is run in. -/
theorem exec_eq_on {i : Instr} (h : exec i s = .next t) :
    ∃ e : Effect, t = e.on s ∧ ∀ u, SeesSame i s u → exec i u = .next (e.on u) := by
  obtain ⟨e, he⟩ := exec_effect h
  exact ⟨e, Host.Outcome.next.inj (h.symm.trans (he s (SeesSame.refl i s))), he⟩

end effect

/-! ### Every command completes where the array has `N` words (R46, R158) -/

section completes
variable {s t u : State}

theorem twenty_le_lanes (cfg : Config) : 20 ≤ cfg.lanes :=
  Nat.mul_le_mul_left 4 (five_le_n cfg)

theorem four_mul_sa_length (h : s.sa.length = s.cfg.n) : 4 * s.sa.length = s.cfg.lanes := by
  rw [h, Config.lanes]

theorem certify_total (h : s.sa.length = s.cfg.n) : ∃ t, certify s = some t := by
  have hpos : 0 < s.sa.length := by have := five_le_n s.cfg; omega
  obtain ⟨sa', hw, -⟩ := certifyWords_total s.cfg.rom hpos
  exact ⟨_, certify_eq_some.2 ⟨sa', hw, rfl⟩⟩

theorem regenerateAt_total (threshold : Nat) (h : s.sa.length = s.cfg.n) : ∃ t, regenerateAt threshold s = some t := by
  rcases Nat.lt_or_ge s.idx.toNat threshold with hlt | hge
  · exact ⟨s, regenerateAt_of_lt hlt⟩
  · obtain ⟨sa', -, -, hr⟩ := regenerate_total h
    exact ⟨_, (regenerateAt_of_le hge).trans hr⟩

/-- Regeneration on demand leaves the lanes the reading command needs (R111, R112). -/
theorem regenerateAt_room {threshold k : Nat} (h : regenerateAt threshold s = some t)
    (hthreshold : threshold + k ≤ s.cfg.lanes + 1) (hk : k ≤ 2) : t.idx.toNat + k ≤ t.cfg.lanes := by
  rcases regenerateAt_eq_some.1 h with ⟨hlt, rfl⟩ | ⟨-, hr⟩
  · omega
  · obtain ⟨sa', -, rfl⟩ := regenerate_eq_some.1 hr
    have hlanes := twenty_le_lanes s.cfg
    simpa using hk.trans (by omega)

theorem take32_total (hlen : s.sa.length = s.cfg.n) (h : s.idx.toNat < s.cfg.lanes) : ∃ t, take32 s = .next t := by
  obtain ⟨v, -, hv⟩ := take32_of_lt s (by rw [four_mul_sa_length hlen]; exact h)
  exact ⟨_, hv⟩

theorem take64_total (hlen : s.sa.length = s.cfg.n) (h : s.idx.toNat + 1 < s.cfg.lanes) : ∃ t, take64 s = .next t := by
  obtain ⟨lo, hi, -, -, hv⟩ := take64_of_lt s (by rw [four_mul_sa_length hlen]; exact h)
  exact ⟨_, hv⟩

/-- SEED completes in every state (R94). -/
theorem execSeed_total (x : U32) (s : State) : ∃ t, execSeed x s = .next t := by
  obtain ⟨u, hu⟩ := certify_total (s := { s with
    sa := seedExpand s.cfg.n x, idx := BitVec.ofNat 13 s.cfg.lanes, seeded := true }) (seedExpand_length _ _)
  exact ⟨_, execSeed_of_certify hu⟩

/-- RDREG completes in every state (R125). -/
theorem execRdreg_total (r : U32) (s : State) : ∃ t, execRdreg r s = .next t := by
  cases hr : Reg.ofNumber? r.toNat with
  | none => exact ⟨_, execRdreg_of_none hr⟩
  | some reg =>
    by_cases hgate : reg = .idx → s.seeded = true
    · exact ⟨_, execRdreg_of_reg hr hgate⟩
    · obtain ⟨rfl, hs⟩ : reg = .idx ∧ s.seeded = false := by simpa using hgate
      exact ⟨_, execRdreg_of_idx hr hs⟩

/-- Every command of a seeded engine completes. -/
theorem exec_total_of_seeded (i : Instr) (hlen : s.sa.length = s.cfg.n) (hs : s.seeded = true) :
    ∃ t, exec i s = .next t := by
  have hlanes := twenty_le_lanes s.cfg
  cases i with
  | seed x => exact execSeed_total x s
  | rdreg r => exact execRdreg_total r s
  | cert =>
    obtain ⟨u, hu⟩ := certify_total hlen
    exact ⟨_, execCert_of_certify hs hu⟩
  | regen =>
    obtain ⟨sa', -, -, hu⟩ := regenerate_total hlen
    exact ⟨_, execRegen_of_regenerate hs hu⟩
  | pop32 =>
    rcases Nat.lt_or_ge (s.cfg.lanes - 1) s.idx.toNat with hlt | hle
    · exact ⟨_, execPop32_of_lt hs hlt⟩
    · obtain ⟨t, ht⟩ := take32_total hlen (by omega)
      exact ⟨t, (execPop32_of_le hs hle).trans ht⟩
  | pop64 =>
    rcases Nat.lt_or_ge (s.cfg.lanes - 2) s.idx.toNat with hlt | hle
    · exact ⟨_, execPop64_of_lt hs hlt⟩
    · obtain ⟨t, ht⟩ := take64_total hlen (by omega)
      exact ⟨t, (execPop64_of_le hs hle).trans ht⟩
  | next32 =>
    obtain ⟨u, hu⟩ := regenerateAt_total s.cfg.lanes hlen
    obtain ⟨t, ht⟩ := take32_total ((SameShape.of_regenerateAt hu).sa_length hlen)
      (regenerateAt_room (k := 1) hu (by omega) (by omega))
    exact ⟨t, (execNext32_of_regenerateAt hs hu).trans ht⟩
  | next64 =>
    obtain ⟨u, hu⟩ := regenerateAt_total (s.cfg.lanes - 1) hlen
    obtain ⟨t, ht⟩ := take64_total ((SameShape.of_regenerateAt hu).sa_length hlen)
      (regenerateAt_room (k := 2) hu (by omega) (by omega))
    exact ⟨t, (execNext64_of_regenerateAt hs hu).trans ht⟩
  | peek j =>
    rcases Nat.lt_or_ge j.toNat s.cfg.lanes with hlt | hge
    · exact ⟨_, execPeek_of_lane hs hlt (memRead1_eq_some (by rw [four_mul_sa_length hlen]; exact hlt))⟩
    · exact ⟨_, execPeek_of_le hs hge⟩

theorem exec_total (i : Instr) (hlen : s.sa.length = s.cfg.n) : ∃ t, exec i s = .next t := by
  by_cases hreg : ∃ r, i = .rdreg r
  · obtain ⟨r, rfl⟩ := hreg
    exact execRdreg_total r s
  by_cases hseed : ∃ x, i = .seed x
  · obtain ⟨x, rfl⟩ := hseed
    exact execSeed_total x s
  cases hs : s.seeded with
  | true => exact exec_total_of_seeded i hlen hs
  | false => exact ⟨_, exec_of_not_seeded hs (not_exists.1 hseed) (not_exists.1 hreg)⟩

end completes

/-! ### The ways a command can write the cursor (R15) -/

/-- `t` has the array, the cursor and the phase of `s`. -/
structure EngineKept (s t : State) : Prop where
  sa_eq : t.sa = s.sa
  idx_eq : t.idx = s.idx
  seeded_eq : t.seeded = s.seeded

/-- The cursor moved over `k` lanes that were left, and the array is as it was. -/
structure Advanced (k : Nat) (s t : State) : Prop where
  sa_eq : t.sa = s.sa
  idx_eq : t.idx.toNat = s.idx.toNat + k
  room : s.idx.toNat + k ≤ s.cfg.lanes

/-- The array is the regenerated one, and the cursor stands behind its first `k` lanes. -/
structure Regenerated (k : Nat) (s t : State) : Prop where
  sa_eq : regenWords s.cfg.rom s.cfg.n s.sa = some t.sa
  idx_eq : t.idx = BitVec.ofNat 13 k

/-- How a command that leads from `s` to `t` wrote the cursor. -/
inductive CursorWay (s t : State) : Instr → Prop
  | kept {i} (h : EngineKept s t) : CursorWay s t i
  | certified (hidx : t.idx = s.idx) (hseeded : t.seeded = s.seeded) : CursorWay s t .cert
  | read32 {i} (hi : i = .pop32 ∨ i = .next32) (h : Advanced 1 s t) : CursorWay s t i
  | read64 {i} (hi : i = .pop64 ∨ i = .next64) (h : Advanced 2 s t) : CursorWay s t i
  | regenerated (h : Regenerated 0 s t) : CursorWay s t .regen
  | regenerated32 (hfull : s.cfg.lanes ≤ s.idx.toNat) (h : Regenerated 1 s t) : CursorWay s t .next32
  | regenerated64 (hfull : s.cfg.lanes ≤ s.idx.toNat + 1) (h : Regenerated 2 s t) : CursorWay s t .next64
  | seeded {x} (hidx : t.idx.toNat = s.cfg.lanes) : CursorWay s t (.seed x)

section cursor
variable {s t u : State}

theorem EngineKept.of_raise {f : SyncFault} (h : raise f s = .next t) : EngineKept s t := by
  rw [raise_eq_next] at h
  exact h ▸ ⟨rfl, rfl, rfl⟩

theorem EngineKept.of_respond {d : U64} (h : respond d s = .next t) : EngineKept s t := by
  rw [respond_eq_next] at h
  exact h ▸ ⟨rfl, rfl, rfl⟩

theorem Advanced.of_take32 (h : take32 s = .next t) (hroom : s.idx.toNat < s.cfg.lanes) : Advanced 1 s t := by
  obtain ⟨v, -, rfl⟩ := take32_next h
  exact ⟨rfl, idx_add_one_toNat hroom, hroom⟩

theorem Advanced.of_take64 (h : take64 s = .next t) (hroom : s.idx.toNat + 1 < s.cfg.lanes) : Advanced 2 s t := by
  obtain ⟨v, -, rfl⟩ := take64_next h
  exact ⟨rfl, idx_add_two_toNat hroom, hroom⟩

theorem Regenerated.of_respond {d : U64} (hr : regenerate s = some u) (h : respond d u = .next t) :
    Regenerated 0 s t := by
  obtain ⟨sa', hw, rfl⟩ := regenerate_eq_some.1 hr
  rw [respond_eq_next] at h
  exact h ▸ ⟨hw, rfl⟩

theorem Regenerated.of_take32 (hr : regenerate s = some u) (h : take32 u = .next t) : Regenerated 1 s t := by
  obtain ⟨sa', hw, rfl⟩ := regenerate_eq_some.1 hr
  obtain ⟨v, -, rfl⟩ := take32_next h
  exact ⟨hw, rfl⟩

theorem Regenerated.of_take64 (hr : regenerate s = some u) (h : take64 u = .next t) : Regenerated 2 s t := by
  obtain ⟨sa', hw, rfl⟩ := regenerate_eq_some.1 hr
  obtain ⟨v, -, rfl⟩ := take64_next h
  exact ⟨hw, rfl⟩

/-- Certification and its response leave the cursor and the phase (R104 (d)). -/
theorem certify_respond_next {d : U64} (hc : certify s = some u) (h : respond d u = .next t) :
    certifyWords s.cfg.rom s.sa = some t.sa ∧ t.idx = s.idx ∧ t.seeded = s.seeded := by
  obtain ⟨sa', hw, rfl⟩ := certify_eq_some.1 hc
  rw [respond_eq_next] at h
  exact h ▸ ⟨hw, rfl, rfl⟩

/-- Every command writes the cursor in one of the ways of R15. -/
theorem CursorWay.of_exec {i : Instr} (h : exec i s = .next t) : CursorWay s t i := by
  have hlanes := twenty_le_lanes s.cfg
  cases i with
  | seed x =>
    obtain ⟨u, hc, h⟩ := execSeed_next h
    obtain ⟨-, hidx, -⟩ := certify_respond_next hc h
    exact .seeded (hidx ▸ ofNat_lanes_toNat s.cfg)
  | cert =>
    rcases execCert_next h with ⟨-, h⟩ | ⟨-, u, hc, h⟩
    · exact .kept (.of_raise h)
    · obtain ⟨-, hidx, hseeded⟩ := certify_respond_next hc h
      exact .certified hidx hseeded
  | regen =>
    rcases execRegen_next h with ⟨-, h⟩ | ⟨-, u, hr, h⟩
    · exact .kept (.of_raise h)
    · exact .regenerated (.of_respond hr h)
  | pop32 =>
    rcases execPop32_next h with ⟨-, h⟩ | ⟨-, ⟨-, h⟩ | ⟨hle, h⟩⟩
    · exact .kept (.of_raise h)
    · exact .kept (.of_raise h)
    · exact .read32 (.inl rfl) (.of_take32 h (by omega))
  | pop64 =>
    rcases execPop64_next h with ⟨-, h⟩ | ⟨-, ⟨-, h⟩ | ⟨hle, h⟩⟩
    · exact .kept (.of_raise h)
    · exact .kept (.of_raise h)
    · exact .read64 (.inl rfl) (.of_take64 h (by omega))
  | next32 =>
    rcases execNext32_next h with ⟨-, h⟩ | ⟨-, u, hu, ht⟩
    · exact .kept (.of_raise h)
    · rcases regenerateAt_eq_some.1 hu with ⟨hlt, rfl⟩ | ⟨hle, hr⟩
      · exact .read32 (.inr rfl) (.of_take32 ht hlt)
      · exact .regenerated32 hle (.of_take32 hr ht)
  | next64 =>
    rcases execNext64_next h with ⟨-, h⟩ | ⟨-, u, hu, ht⟩
    · exact .kept (.of_raise h)
    · rcases regenerateAt_eq_some.1 hu with ⟨hlt, rfl⟩ | ⟨hle, hr⟩
      · exact .read64 (.inr rfl) (.of_take64 ht (by omega))
      · exact .regenerated64 (by omega) (.of_take64 hr ht)
  | peek j =>
    rcases execPeek_next h with ⟨-, h⟩ | ⟨-, ⟨-, h⟩ | ⟨-, v, -, h⟩⟩
    · exact .kept (.of_raise h)
    · exact .kept (.of_raise h)
    · exact .kept (.of_respond h)
  | rdreg r =>
    rcases execRdreg_next h with ⟨-, h⟩ | ⟨reg, -, ⟨-, -, h⟩ | ⟨-, h⟩⟩
    · exact .kept (.of_raise h)
    · exact .kept (.of_raise h)
    · exact .kept (.of_respond h)

theorem Regenerated.idx_le {k : Nat} (h : Regenerated k s t) (hk : k ≤ 2) : t.idx.toNat ≤ s.cfg.lanes := by
  have hlanes := twenty_le_lanes s.cfg
  rw [h.idx_eq, BitVec.toNat_ofNat]
  omega

/-- Whichever way the cursor was written, it is at most `4N` if the engine is then seeded (R15). -/
theorem CursorWay.idx_le {i : Instr} (hw : CursorWay s t i) (hinv : s.Inv) (hs : t.seeded = true) :
    t.idx.toNat ≤ s.cfg.lanes := by
  cases hw with
  | kept h => exact h.idx_eq ▸ hinv.idx_le (h.seeded_eq ▸ hs)
  | certified hidx hseeded => exact hidx ▸ hinv.idx_le (hseeded ▸ hs)
  | read32 hi h => exact h.idx_eq ▸ h.room
  | read64 hi h => exact h.idx_eq ▸ h.room
  | regenerated h => exact h.idx_le (by omega)
  | regenerated32 hfull h => exact h.idx_le (by omega)
  | regenerated64 hfull h => exact h.idx_le (by omega)
  | seeded hidx => exact hidx.le

/-- A command that does not regenerate, certify or seed leaves the array (R14). -/
theorem CursorWay.sa_eq {i : Instr} (hw : CursorWay s t i) (hseed : ∀ x, i ≠ .seed x) (hcert : i ≠ .cert)
    (hregen : i ≠ .regen) (h32 : i = .next32 → s.idx.toNat < s.cfg.lanes)
    (h64 : i = .next64 → s.idx.toNat + 1 < s.cfg.lanes) : t.sa = s.sa := by
  cases hw with
  | kept h => exact h.sa_eq
  | certified => exact absurd rfl hcert
  | read32 hi h => exact h.sa_eq
  | read64 hi h => exact h.sa_eq
  | regenerated h => exact absurd rfl hregen
  | regenerated32 hfull h => exact absurd (h32 rfl) (Nat.not_lt.2 hfull)
  | regenerated64 hfull h => exact absurd (h64 rfl) (Nat.not_lt.2 hfull)
  | seeded hidx => exact absurd rfl (hseed _)

end cursor

/-! ### Certification flips at most one bit of `SA[0]` (R102) -/

theorem doubleUntil_eq_shiftLeft (p : U32) (fuel : Nat) :
    ∀ work : U32, ∃ m ≤ fuel, doubleUntil p fuel work = work <<< m := by
  induction fuel with
  | zero => exact fun work => ⟨0, le_rfl, by simp [doubleUntil]⟩
  | succ fuel ih =>
    intro work
    by_cases hp : work &&& p = 0#32
    · obtain ⟨m, hm, he⟩ := ih (work <<< 1)
      refine ⟨m + 1, by omega, ?_⟩
      rw [doubleUntil, if_pos hp, he, ← BitVec.shiftLeft_add, Nat.add_comm]
    · exact ⟨0, by omega, by rw [doubleUntil, if_neg hp, BitVec.shiftLeft_zero]⟩

/-- `work` is one bit of a lane (R102: "at most 31 doublings"). -/
theorem lowestSetBit_eq_shiftLeft (p : U32) : ∃ m < 32, lowestSetBit p = 1#32 <<< m := by
  obtain ⟨m, hm, he⟩ := doubleUntil_eq_shiftLeft p 31 1
  exact ⟨m, by omega, he⟩

/-- Bit `m` of lane `k` is bit `32k + m` of the word, as a word with one bit set (R10). -/
theorem lane_one_shiftLeft {k j m : Nat} (hm : m < 32) (hj : j < 4) :
    lane (1#128 <<< (32 * k + m)) j = if k = j then 1#32 <<< m else 0#32 := by
  apply BitVec.eq_of_getLsbD_eq
  intro i hi
  rw [Bool.eq_iff_iff, getLsbD_lane]
  split_ifs with hkj <;>
    simp only [← BitVec.twoPow_eq, BitVec.getLsbD_twoPow, BitVec.getLsbD_zero, Bool.and_eq_true, decide_eq_true_eq,
      Bool.false_eq_true]
  · omega
  · exact iff_of_false (by omega) id

theorem setLane_xor_one_shiftLeft (w : Word) {k m : Nat} (hm : m < 32) :
    setLane w k (lane w k ^^^ 1#32 <<< m) = w ^^^ 1#128 <<< (32 * k + m) := by
  apply word_ext
  intro j hj
  rw [lane_setLane _ _ hj, lane_xor, lane_one_shiftLeft hm hj]
  split_ifs with hkj
  · rw [hkj]
  · rw [BitVec.xor_zero]

/-- Certification leaves the array or flips one bit of `SA[0]` (R100, R102). -/
theorem certifyWords_flips {rom : RomEntry} {sa sa' : List Word} (h : certifyWords rom sa = some sa') :
    sa' = sa ∨ ∃ w b, sa[0]? = some w ∧ b < 128 ∧ sa' = sa.set 0 (w ^^^ (1#128 <<< b)) := by
  cases sa with
  | nil => cases h
  | cons w ws =>
    have hpos : 0 < (w :: ws).length := Nat.succ_pos _
    have hlt : ∀ k ∈ [0, 1, 2, 3], k < 4 := by decide
    rw [certifyWords, saRead_eq_some hpos] at h
    dsimp only at h
    split at h
    · exact .inl (Option.some.inj h).symm
    · rcases correctFrom_cases rom hpos [0, 1, 2, 3] hlt with ⟨hc, -⟩ | ⟨k, hk, -, hc⟩
      · exact .inl (Option.some.inj (h.symm.trans hc))
      · obtain ⟨m, hm, hbit⟩ := lowestSetBit_eq_shiftLeft (rom.parity k)
        have hk4 := hlt k hk
        refine .inr ⟨w, 32 * k + m, rfl, by omega, ?_⟩
        rw [← setLane_xor_one_shiftLeft w hm, ← hbit]
        exact Option.some.inj (h.symm.trans hc)

theorem execCert_sa {s t : State} (h : execCert s = .next t) :
    t.sa = s.sa ∨ ∃ w b, s.sa[0]? = some w ∧ b < 128 ∧ t.sa = s.sa.set 0 (w ^^^ (1#128 <<< b)) := by
  rcases execCert_next h with ⟨-, h⟩ | ⟨-, u, hc, h⟩
  · exact .inl (EngineKept.of_raise h).sa_eq
  · exact certifyWords_flips (certify_respond_next hc h).1

/-! ### Every step keeps the invariant -/

section invariant
variable {s t : State}

theorem exec_inv {i : Instr} (hinv : s.Inv) (h : exec i s = .next t) : t.Inv := by
  have hshape := SameShape.of_exec h
  refine ⟨hshape.cfg_eq ▸ hinv.cfg_wf, hshape.sa_length hinv.sa_length, fun hs => ?_⟩
  rw [hshape.cfg_eq]
  exact (CursorWay.of_exec h).idx_le hinv hs

theorem raise_inv {f : SyncFault} (hinv : s.Inv) (h : raise f s = .next t) : t.Inv := by
  rw [raise_eq_next] at h
  exact h ▸ hinv.congr rfl rfl rfl rfl

theorem applyReset_inv (hinv : s.Inv) : (applyReset s).Inv :=
  ⟨hinv.cfg_wf, applyReset_sa_length s, nofun⟩

theorem withPending_inv (hinv : s.Inv) (rest : List HostEvent) : { s with pending := rest }.Inv :=
  hinv.congr rfl rfl rfl rfl

theorem step_inv (hinv : s.Inv) (h : step s = .next t) : t.Inv := by
  rcases step_cases s with ⟨-, hs⟩ | ⟨rest, -, hs⟩ | ⟨c, rest, i, -, -, hs⟩ | ⟨c, rest, why, -, -, hs⟩
  · cases hs.symm.trans h
    exact hinv
  · cases hs.symm.trans h
    exact applyReset_inv (withPending_inv hinv rest)
  · exact exec_inv (withPending_inv hinv rest) (hs.symm.trans h)
  · exact raise_inv (withPending_inv hinv rest) (hs.symm.trans h)

end invariant

/-! ### States that differ in unspecified parts only stay so (R25, R149) -/

namespace SameButUnspecified
variable {s t : State}

theorem seesSame (h : SameButUnspecified s t) (i : Instr) : SeesSame i s t :=
  ⟨h.cfg_eq.symm, h.seeded_eq.symm, fun hs => (h.sa_eq hs).symm, fun hs => (h.idx_eq hs).symm,
    fun _ _ => h.fault_eq.symm⟩

theorem of_pending (h : SameButUnspecified s t) (rest : List HostEvent) :
    SameButUnspecified { s with pending := rest } { t with pending := rest } :=
  { h with
    inv_left := withPending_inv h.inv_left rest
    inv_right := withPending_inv h.inv_right rest
    pending_eq := rfl }

theorem of_applyReset (h : SameButUnspecified s t) : SameButUnspecified (applyReset s) (applyReset t) where
  inv_left := applyReset_inv h.inv_left
  inv_right := applyReset_inv h.inv_right
  cfg_eq := h.cfg_eq
  seeded_eq := rfl
  fault_eq := rfl
  pending_eq := h.pending_eq
  responses_eq := h.responses_eq
  sa_eq := nofun
  idx_eq := nofun

/-- One effect on both states: what it writes is the same in both, and what it leaves agreed before. -/
theorem of_effect (h : SameButUnspecified s t) (e : Effect) (hs : (e.on s).Inv) (ht : (e.on t).Inv) :
    SameButUnspecified (e.on s) (e.on t) := by
  have hresponses (r : Response) : s.responses ++ [r] = t.responses ++ [r] := by rw [h.responses_eq]
  cases e with
  | raised f =>
    exact { h with
      inv_left := hs, inv_right := ht, responses_eq := hresponses _
      fault_eq := congrArg (FaultBits.raised · f) h.fault_eq }
  | observed d => exact { h with inv_left := hs, inv_right := ht, responses_eq := hresponses _ }
  | written sa idx d =>
    exact ⟨hs, ht, h.cfg_eq, rfl, h.fault_eq, h.pending_eq, hresponses _, fun _ => rfl, fun _ => rfl⟩

theorem of_exec (h : SameButUnspecified s t) (i : Instr) :
    ∃ s' t', exec i s = .next s' ∧ exec i t = .next t' ∧ SameButUnspecified s' t' := by
  obtain ⟨s', hs⟩ := exec_total i h.inv_left.sa_length
  obtain ⟨e, rfl, he⟩ := exec_eq_on hs
  have ht := he t (h.seesSame i)
  exact ⟨_, _, hs, ht, h.of_effect e (exec_inv h.inv_left hs) (exec_inv h.inv_right ht)⟩

theorem of_step (h : SameButUnspecified s t) :
    ∃ s' t', step s = .next s' ∧ step t = .next t' ∧ SameButUnspecified s' t' := by
  rcases step_cases s with ⟨hp, hs⟩ | ⟨rest, hp, hs⟩ | ⟨c, rest, i, hp, hd, hs⟩ | ⟨c, rest, why, hp, hd, hs⟩
  · exact ⟨s, t, hs, step_nil (h.pending_eq ▸ hp), h⟩
  · exact ⟨_, _, hs, step_rst (h.pending_eq ▸ hp), (h.of_pending rest).of_applyReset⟩
  · rw [hs, step_instr (h.pending_eq ▸ hp) hd]
    exact (h.of_pending rest).of_exec i
  · refine ⟨_, _, hs, step_reserved (h.pending_eq ▸ hp) hd, (h.of_pending rest).of_effect (.raised .illegalCommand) ?_ ?_⟩
    · exact raise_inv (withPending_inv h.inv_left rest) (raise_eq_raised _ _)
    · exact raise_inv (withPending_inv h.inv_right rest) (raise_eq_raised _ _)

theorem of_run (h : SameButUnspecified s t) (k : Nat) :
    ∃ s' t', Host.Core.run core k s = .next s' ∧ Host.Core.run core k t = .next t' ∧ SameButUnspecified s' t' := by
  induction k generalizing s t with
  | zero => exact ⟨s, t, rfl, rfl, h⟩
  | succ k ih =>
    obtain ⟨s₁, t₁, hs, ht, h₁⟩ := h.of_step
    obtain ⟨s', t', hs', ht', h'⟩ := ih h₁
    exact ⟨s', t', (run_succ hs k).trans hs', (run_succ ht k).trans ht', h'⟩

end SameButUnspecified

/-! ### The statements of 10_state.md -/

/-- Settles O46: the shape is kept (`SameShape`), and each way of writing the cursor keeps its bound (`CursorWay.idx_le`). -/
theorem stepKeepsInvariant : Obligations.StepKeepsInvariant := by
  unfold Obligations.StepKeepsInvariant
  exact fun s t hinv h => step_inv hinv h

/-- Settles O53: a command has one effect in both states (`exec_eq_on`), so every step keeps them alike. -/
theorem unspecifiedPartsUnobservable : Obligations.UnspecifiedPartsUnobservable := by
  unfold Obligations.UnspecifiedPartsUnobservable
  exact fun k s t h => h.of_run k

/-- Settles O42: a command's effect never clears a bit and, but for RDREG, does not depend on the bits (`exec_eq_on`). -/
theorem faultBitsStickyAndInert : Obligations.FaultBitsStickyAndInert := by
  unfold Obligations.FaultBitsStickyAndInert
  refine ⟨?raised, ?reset, ?sticky, ?inert⟩
  case raised =>
    intro s t f h
    rw [raise_eq_next] at h
    simp [h, has_raised]
  case reset =>
    intro s t rest hp h f
    cases (step_rst hp).symm.trans h
    simp
  case sticky =>
    intro s t c rest hp h f hf
    cases hd : decode c with
    | instr i =>
      obtain ⟨e, rfl, -⟩ := exec_eq_on ((step_instr hp hd).symm.trans h)
      exact Effect.has_on hf
    | reserved why =>
      cases (step_reserved hp hd).symm.trans h
      exact Effect.has_on (e := .raised .illegalCommand) hf
  case inert =>
    intro i s t b hreg h
    obtain ⟨e, rfl, he⟩ := exec_eq_on h
    obtain ⟨b', hb'⟩ := e.on_with_fault s b
    exact ⟨b', hb' ▸ he _ ⟨rfl, rfl, fun _ => rfl, fun _ => rfl, fun r hr => absurd hr (hreg r)⟩⟩

/-- Settles O51, by the way the command wrote the cursor. -/
theorem cursorWriters : Obligations.CursorWriters := by
  unfold Obligations.CursorWriters
  intro i s t hinv h
  have hw := CursorWay.of_exec h
  refine ⟨?_, hw.idx_le hinv⟩
  cases hw with
  | kept h => exact .inl ⟨h.idx_eq, .inr h.sa_eq⟩
  | certified hidx => exact .inl ⟨hidx, .inl rfl⟩
  | read32 hi h => exact .inr (.inl ⟨hi, h.sa_eq, h.idx_eq⟩)
  | read64 hi h => exact .inr (.inr (.inl ⟨hi, h.sa_eq, h.idx_eq⟩))
  | regenerated hr => exact .inr (.inr (.inr (.inl ⟨rfl, hr.sa_eq, hr.idx_eq⟩)))
  | regenerated32 _ hr => exact .inr (.inr (.inr (.inr (.inl ⟨rfl, hr.sa_eq, hr.idx_eq⟩))))
  | regenerated64 _ hr => exact .inr (.inr (.inr (.inr (.inr (.inl ⟨rfl, hr.sa_eq, hr.idx_eq⟩)))))
  | seeded hidx => exact .inr (.inr (.inr (.inr (.inr (.inr ⟨⟨_, rfl⟩, hidx⟩)))))

/-- Settles O52: the reads write the array only where they regenerate (`CursorWay.sa_eq`), CERT flips at most one bit. -/
theorem arrayWriters : Obligations.ArrayWriters := by
  unfold Obligations.ArrayWriters
  intro i s t _ h
  have hw := CursorWay.of_exec h
  refine ⟨?reads, ?next32, ?next64, ?cert⟩
  case reads => rintro (rfl | rfl | ⟨j, rfl⟩ | ⟨r, rfl⟩) <;> exact hw.sa_eq nofun nofun nofun nofun nofun
  case next32 =>
    rintro rfl hlt
    exact hw.sa_eq nofun nofun nofun (fun _ => hlt) nofun
  case next64 =>
    rintro rfl hlt
    exact hw.sa_eq nofun nofun nofun nofun fun _ => hlt
  case cert =>
    rintro rfl
    exact execCert_sa h

/-- Settles O38: each appended bit doubles the number above it. -/
theorem statusLayout : Obligations.StatusLayout := by
  unfold Obligations.StatusLayout
  exact ⟨status_resetOf, fun s => ⟨status_toNat s, execRdreg_of_reg (r := 0) (reg := .status) (s := s) rfl nofun⟩⟩

/-- Settles O44: the fields of `State.resetOf`, and STATUS of them. -/
theorem resetValues : Obligations.ResetValues := by
  unfold Obligations.ResetValues
  exact fun cfg => ⟨resetOf_seeded cfg, resetOf_fault cfg, resetOf_cfg cfg, status_resetOf cfg, rfl⟩

/-- Settles O45: every default entry is legal, and an engine that is not seeded owes its cursor nothing. -/
theorem resetMeetsInvariant : Obligations.ResetMeetsInvariant := by
  unfold Obligations.ResetMeetsInvariant
  exact ⟨fun sel => resetOf_inv (standard_wellFormed sel), resetOf_inv (standard_wellFormed .m19937)⟩

end Sys2Proof.Machine

namespace Sys2Proof

/-! ### A presented command decodes to itself (R56) -/

theorem decodeFields_fields (i : Instr) : decodeFields i.fields = .instr i := by
  cases i <;> rfl

@[simp] theorem decode_encode (i : Instr) : decode (encode i) = .instr i := by
  rw [decode, encode, Laws.EncodedFields.ofWord_word, decodeFields_fields]

end Sys2Proof

namespace Sys2Proof.Machine

/-! ### A command answers once (R41, R52) -/

section answer
variable {s t : State}

@[simp] theorem Effect.on_pending (e : Effect) (s : State) : (e.on s).pending = s.pending := by
  cases e <;> rfl

theorem Effect.on_responses (e : Effect) (s : State) : ∃ r, (e.on s).responses = s.responses ++ [r] := by
  cases e with
  | raised f => exact ⟨.fault f, rfl⟩
  | observed d => exact ⟨.ok d, rfl⟩
  | written sa idx d => exact ⟨.ok d, rfl⟩

/-- A command word, reserved or not, is one effect on the state with the word taken off the port. -/
theorem step_command_effect {c : CmdWord} {rest : List HostEvent} (hp : s.pending = .command c :: rest)
    (h : step s = .next t) : ∃ e : Effect, t = e.on { s with pending := rest } := by
  cases hd : decode c with
  | instr i =>
    obtain ⟨e, he, -⟩ := exec_eq_on ((step_instr hp hd).symm.trans h)
    exact ⟨e, he⟩
  | reserved why => exact ⟨.raised .illegalCommand, (Host.Outcome.next.inj ((step_reserved hp hd).symm.trans h)).symm⟩

end answer

/-! ### The array as lanes (R32, R33) -/

section lanes
variable {sa : List Word} {i j k : Nat} {v w : Word}

theorem memRead1_of_word (h : sa[j / 4]? = some w) : memRead1 sa j = some (lane w (j % 4)) := by
  simp [memRead1, saRead, h]

theorem memRead1_of_no_word (h : sa[j / 4]? = none) : memRead1 sa j = none := by
  simp [memRead1, saRead, h]

/-- From a multiple of 4 on, the next four lanes are those of one word, in order. -/
theorem memRead1_add_of_aligned (h : sa[j / 4]? = some w) (hj : j % 4 = 0) (hk : k < 4) :
    memRead1 sa (j + k) = some (lane w k) := by
  have hdiv : (j + k) / 4 = j / 4 := by omega
  have hmod : (j + k) % 4 = k := by omega
  rw [memRead1_of_word (hdiv ▸ h), hmod]

theorem memRead2_of_lanes {lo hi : U32} (hlo : memRead1 sa j = some lo) (hhi : memRead1 sa (j + 1) = some hi) :
    memRead2 sa j = some (hi ++ lo) := by
  simp only [memRead2, hlo, hhi]

theorem memRead4_of_aligned (sa : List Word) (hj : j % 4 = 0) : memRead4 sa j = sa[j / 4]? := by
  cases h : sa[j / 4]? with
  | none => simp only [memRead4, memRead1_of_no_word h]
  | some w =>
    have hlane := fun k hk => memRead1_add_of_aligned (k := k) h hj hk
    have hzero : memRead1 sa j = some (lane w 0) := hlane 0 (by omega)
    simp only [memRead4, hzero, hlane 1 (by omega), hlane 2 (by omega), hlane 3 (by omega), pack_lanes]

/-- Two lanes joined, as the low one and the high one shifted up by a lane. -/
theorem append_eq_setWidth_or_shiftLeft (hi lo : U32) :
    hi ++ lo = lo.setWidth 64 ||| hi.setWidth 64 <<< 32 := by
  apply BitVec.eq_of_getLsbD_eq
  intro i hlt
  rw [BitVec.getLsbD_append]
  by_cases hlow : i < 32
  · simp [hlow, hlt]
  · have hzero : lo.getLsbD i = false := BitVec.getLsbD_of_ge lo i (by omega)
    simp [hlow, hlt, hzero]

/-! ### Reading a lane after a write (R34) -/

theorem memRead1_set_of_eq (hi : i < sa.length) (hk : k / 4 = i) :
    memRead1 (sa.set i v) k = some (lane v (k % 4)) :=
  memRead1_of_word (by rw [hk, List.getElem?_set_self hi])

theorem memRead1_set_of_ne (hk : k / 4 ≠ i) : memRead1 (sa.set i v) k = memRead1 sa k := by
  simp only [memRead1, saRead, List.getElem?_set_ne hk.symm]

/-- Replacing lane `j` in its word keeps every other lane, of that word and of the others. -/
theorem memRead1_set_setLane_of_ne {x : U32} (h : sa[j / 4]? = some w) (hk : k ≠ j) :
    memRead1 (sa.set (j / 4) (setLane w (j % 4) x)) k = memRead1 sa k := by
  by_cases hword : k / 4 = j / 4
  · have hlane : j % 4 ≠ k % 4 := by omega
    have hlt : j / 4 < sa.length := (List.getElem?_eq_some_iff.1 h).1
    rw [memRead1_set_of_eq hlt hword, lane_setLane _ _ (Nat.mod_lt k (by omega)), if_neg hlane,
      memRead1_of_word (hword ▸ h)]
  · exact memRead1_set_of_ne hword

end lanes

/-! ### The statements of 20_memory.md -/

/-- Settles O7: a command word is one effect on the rest of the port (`step_command_effect`), and an effect answers once. -/
theorem oneResponsePerCommandInOrder : Obligations.OneResponsePerCommandInOrder := by
  unfold Obligations.OneResponsePerCommandInOrder
  intro s t _ h
  match hp : s.pending with
  | [] => exact .inl ⟨rfl, Host.Outcome.next.inj (h.symm.trans (step_nil hp))⟩
  | .rst :: rest =>
    cases (step_rst hp).symm.trans h
    exact .inr (.inl ⟨rest, rfl, rfl, rfl⟩)
  | .command c :: rest =>
    obtain ⟨e, rfl⟩ := step_command_effect hp h
    obtain ⟨r, hr⟩ := e.on_responses { s with pending := rest }
    exact .inr (.inr ⟨c, rest, r, rfl, e.on_pending _, hr⟩)

/-- Settles O9: the lane of the word it lies in; pairs are joined low lane first, an aligned quad is its word's lanes. -/
theorem lanesAreLittleEndian : Obligations.LanesAreLittleEndian := by
  unfold Obligations.LanesAreLittleEndian
  intro sa j
  refine ⟨fun w => memRead1_of_word, memRead1_eq_none, ?pair, memRead4_of_aligned sa⟩
  case pair =>
    intro lo hi hlo hhi
    rw [memRead2_of_lanes hlo hhi, append_eq_setWidth_or_shiftLeft]

/-- Settles O10: both writes set one word, a lane write with the other lanes of the word kept. -/
theorem laneWriteChangesThatLaneOnly : Obligations.LaneWriteChangesThatLaneOnly := by
  unfold Obligations.LaneWriteChangesThatLaneOnly
  refine ⟨?laneWrite, ?wordWrite⟩
  case laneWrite =>
    intro sa j x hj
    have hlt : j / 4 < sa.length := by omega
    refine ⟨_, memWrite1_of_lt hj, List.length_set, ?_,
      fun k => memRead1_set_setLane_of_ne (List.getElem?_eq_getElem hlt)⟩
    rw [memRead1_set_of_eq hlt rfl, lane_setLane _ _ (Nat.mod_lt j (by omega)), if_pos rfl]
  case wordWrite =>
    intro sa i v hi
    exact ⟨_, saWrite_of_lt hi, List.length_set, fun k => memRead1_set_of_eq hi, fun k => memRead1_set_of_ne⟩

/-- Settles O6: the step's equation for a command word, and a presented command decodes to itself. -/
theorem stepRunsDecodedCommand : Obligations.StepRunsDecodedCommand := by
  unfold Obligations.StepRunsDecodedCommand
  exact ⟨fun s c rest i => step_instr, fun s i => step_instr (s := { s with pending := _ }) rfl (decode_encode i),
    fun s => step_nil⟩

end Sys2Proof.Machine

namespace Sys2Proof

/-! ### What a word decodes to, said once (R51, R56) -/

/-- What the fields of a word decode to: a command has exactly its own fields, and anything else is reserved. -/
inductive DecodesTo : CmdFields → Decoded → Prop
  | instr (i : Instr) : DecodesTo i.fields (.instr i)
  | reserved {f : CmdFields} (hf : f.wellFormed = false) (why : Reserved) : DecodesTo f (.reserved why)

theorem Instr.wellFormed_eq_true (i : Instr) : i.wellFormed = true := by
  cases i <;> rfl

@[simp] theorem Instr.fields_wellFormed (i : Instr) : i.fields.wellFormed = true := by
  cases i <;> rfl

/-- The reserved words of R51, as the check of a word's fields refuses them. -/
theorem CmdFields.wellFormed_eq_false_iff (f : CmdFields) :
    f.wellFormed = false ↔ f.op = 0#4 ∨ 0xA#4 ≤ f.op ∨ (2#4 ≤ f.op ∧ f.op ≤ 7#4 ∧ f.arg ≠ 0#32) := by
  by_cases harg : f.arg = 0#32 <;> simp [wellFormed, harg] <;> bv_omega

section fields
variable {f : CmdFields} {i : Instr}

theorem DecodesTo.of_fields (hf : i.fields = f) : DecodesTo f (.instr i) := hf ▸ .instr i

/-- A command without an operand, under its own opcode. -/
theorem DecodesTo.decodeNoArg (hi : i.fields = ⟨f.op, 0#32⟩) (hop : 2#4 ≤ i.fields.op ∧ i.fields.op ≤ 7#4) :
    DecodesTo f (decodeNoArg i f) := by
  unfold Sys2Proof.decodeNoArg
  split
  · next harg => exact .of_fields (by rw [hi, ← harg])
  · next harg =>
    rw [hi] at hop
    exact .reserved (f.wellFormed_eq_false_iff.2 (.inr (.inr ⟨hop.1, hop.2, harg⟩))) _

/-- The branches of R56, opcode by opcode. -/
theorem decodesTo_decodeFields (f : CmdFields) : DecodesTo f (decodeFields f) := by
  obtain ⟨op, arg⟩ := f
  simp only [decodeFields]
  split_ifs with h1 h2 h3 h4 h5 h6 h7 h8 h9
  · exact .of_fields (h1 ▸ rfl)
  · exact .decodeNoArg (h2 ▸ rfl) (by decide)
  · exact .decodeNoArg (h3 ▸ rfl) (by decide)
  · exact .decodeNoArg (h4 ▸ rfl) (by decide)
  · exact .decodeNoArg (h5 ▸ rfl) (by decide)
  · exact .decodeNoArg (h6 ▸ rfl) (by decide)
  · exact .decodeNoArg (h7 ▸ rfl) (by decide)
  · exact .of_fields (h8 ▸ rfl)
  · exact .of_fields (h9 ▸ rfl)
  · have hop : op = 0#4 ∨ 0xA#4 ≤ op := by bv_omega
    exact .reserved ((CmdFields.wellFormed_eq_false_iff _).2 (or_assoc.1 (.inl hop))) _

/-- A command decodes from its own fields and from no others. -/
theorem decodeFields_eq_instr_iff : decodeFields f = .instr i ↔ i.fields = f := by
  refine ⟨fun h => ?_, fun h => h ▸ decodeFields_fields i⟩
  have hdec := decodesTo_decodeFields f
  rw [h] at hdec
  cases hdec
  rfl

theorem exists_decodeFields_eq_reserved_iff :
    (∃ why, decodeFields f = .reserved why) ↔ f.wellFormed = false := by
  have hdec := decodesTo_decodeFields f
  generalize decodeFields f = d at hdec ⊢
  cases hdec with
  | instr i => simp
  | reserved hf why => simp [hf]

end fields

section word
variable {c : CmdWord} {i : Instr}

theorem encode_eq_iff : encode i = c ↔ i.fields = CmdFields.ofWord c := by
  constructor
  · rintro rfl
    exact (Laws.EncodedFields.ofWord_word _).symm
  · intro h
    rw [encode, h, Laws.EncodedFields.word_ofWord]

/-- Decoding and encoding undo each other on every word that is not reserved (R56). -/
theorem decode_eq_instr_iff : decode c = .instr i ↔ encode i = c :=
  decodeFields_eq_instr_iff.trans encode_eq_iff.symm

/-- A command's word as R56 writes it: the word of its opcode, and its operand in the low bits. -/
theorem encode_eq_or {op : BitVec 4} {arg : U32} {opWord : CmdWord} (hi : i.fields = ⟨op, arg⟩)
    (hop : op.setWidth 36 <<< 32 = opWord) : encode i = opWord ||| arg.setWidth 36 := by
  rw [encode, hi, CmdFields.word, ← hop, ← BitVec.setWidth_append_eq_shiftLeft_setWidth_or, BitVec.setWidth_eq]

theorem extractLsb'_op_encode (i : Instr) : (encode i).extractLsb' 32 4 = i.fields.op :=
  BitVec.extractLsb'_append_eq_left

theorem extractLsb'_arg_encode (i : Instr) : (encode i).extractLsb' 0 32 = i.fields.arg :=
  BitVec.extractLsb'_append_eq_right

end word

/-! ### The rows of the opcode table (R48) -/

/-- Every command is one of the nine (R48). -/
theorem Instr.exists_iff {p : Instr → Prop} :
    (∃ i, p i) ↔ (∃ s, p (.seed s)) ∨ p .cert ∨ p .regen ∨ p .pop32 ∨ p .pop64 ∨ p .next32 ∨ p .next64 ∨
      (∃ j, p (.peek j)) ∨ (∃ r, p (.rdreg r)) := by
  constructor
  · rintro ⟨i, hi⟩
    cases i <;> grind
  · rintro (⟨s, h⟩ | h | h | h | h | h | h | ⟨j, h⟩ | ⟨r, h⟩) <;> exact ⟨_, h⟩

section row
variable {row : OpcodeRow} {c : CmdWord}

/-- A row that fixes all 36 bits covers the word of one command. -/
theorem OpcodeRow.covers_iff_of_fullMask {i : Instr} (hm : row.mask = BitVec.allOnes 36)
    (hp : row.pattern = encode i) : row.covers c = true ↔ decode c = .instr i := by
  rw [covers, hm, hp, BitVec.and_allOnes, beq_iff_eq, decode_eq_instr_iff, eq_comm]

/-- A row that fixes the opcode alone covers the words of one command with every operand. -/
theorem OpcodeRow.covers_iff_of_opcodeMask {op : BitVec 4} {i : U32 → Instr} (hi : ∀ x, (i x).fields = ⟨op, x⟩)
    (hm : row.mask = 0xF#4 ++ 0#32) (hp : row.pattern = op ++ 0#32) :
    row.covers c = true ↔ ∃ x, decode c = .instr (i x) := by
  obtain ⟨⟨opcode, arg⟩, rfl⟩ : ∃ f : CmdFields, f.word = c := ⟨_, Laws.EncodedFields.word_ofWord c⟩
  have hand : (CmdFields.mk opcode arg).word &&& row.mask = opcode ++ 0#32 := by
    rw [CmdFields.word, hm, BitVec.and_append, show 0xF#4 = BitVec.allOnes 4 from rfl, BitVec.and_allOnes,
      BitVec.and_zero]
  have hdec : ∀ x, decode (CmdFields.mk opcode arg).word = .instr (i x) ↔ op = opcode ∧ x = arg := by
    intro x
    rw [decode, Laws.EncodedFields.ofWord_word, decodeFields_eq_instr_iff, hi, CmdFields.mk.injEq]
  rw [covers, hand, hp, beq_iff_eq, BitVec.append_left_inj]
  simp [hdec, eq_comm]

/-- Each row's mnemonic names one command; the row fixes the opcode where that command has an operand, else the word. -/
theorem OpcodeRow.covers_iff_exists_decode (hrow : row ∈ opcodeTable) :
    row.covers c = true ↔ ∃ i, decode c = .instr i ∧ i.mnemonic = row.mnemonic := by
  simp only [opcodeTable, List.mem_cons, List.not_mem_nil, or_false] at hrow
  rcases hrow with rfl | rfl | rfl | rfl | rfl | rfl | rfl | rfl | rfl <;>
    simp only [Instr.exists_iff, Instr.mnemonic, String.reduceEq, and_false, and_true, or_false, false_or,
      exists_false]
  · exact covers_iff_of_opcodeMask (fun _ => rfl) rfl rfl
  · exact covers_iff_of_fullMask rfl rfl
  · exact covers_iff_of_fullMask rfl rfl
  · exact covers_iff_of_fullMask rfl rfl
  · exact covers_iff_of_fullMask rfl rfl
  · exact covers_iff_of_fullMask rfl rfl
  · exact covers_iff_of_fullMask rfl rfl
  · exact covers_iff_of_opcodeMask (fun _ => rfl) rfl rfl
  · exact covers_iff_of_opcodeMask (fun _ => rfl) rfl rfl

/-- No mnemonic names two rows. -/
theorem opcodeTable_mnemonic_inj :
    ∀ row ∈ opcodeTable, ∀ row' ∈ opcodeTable, row.mnemonic = row'.mnemonic → row = row' := by
  decide

end row

end Sys2Proof

namespace Sys2Proof.Machine

/-! ### Responses (R52, R53) -/

theorem step_command_total {s : State} {c : CmdWord} {rest : List HostEvent} (hlen : s.sa.length = s.cfg.n)
    (hp : s.pending = .command c :: rest) : ∃ t, step s = .next t := by
  cases hd : decode c with
  | instr i =>
    obtain ⟨t, ht⟩ := exec_total (s := { s with pending := rest }) i hlen
    exact ⟨t, (step_instr hp hd).trans ht⟩
  | reserved why => exact ⟨_, step_reserved hp hd⟩

/-- R52: a fault carries no data. -/
theorem Response.data_eq_zero_of_code_ne_zero {r : Response} (h : r.code ≠ 0) : r.data = 0 := by
  cases r with
  | ok d => exact absurd rfl h
  | fault f => rfl

/-- R53: codes 5 to 15 are never produced. -/
theorem Response.code_le_four (r : Response) : r.code.toNat ≤ 4 := by
  cases r with
  | ok d => exact Nat.zero_le 4
  | fault f => cases f <;> decide

/-! ### The statements of 30_encoding.md -/

/-- Settles O1: a command is decoded from its own word only, and a reserved word is the word of no command. -/
theorem decodeAndEncodeAgree : Obligations.DecodeAndEncodeAgree := by
  unfold Obligations.DecodeAndEncodeAgree
  refine ⟨?table, fun s => encode_eq_or rfl (by decide), rfl, rfl, rfl, rfl, rfl, rfl,
    fun j => encode_eq_or rfl (by decide), fun r => encode_eq_or rfl (by decide),
    fun i => ⟨i.wellFormed_eq_true, decode_encode i⟩, fun c i => decode_eq_instr_iff.1⟩
  case table =>
    intro c
    cases hd : decode c with
    | instr i =>
      obtain rfl := decode_eq_instr_iff.1 hd
      rw [extractLsb'_op_encode, extractLsb'_arg_encode]
      cases i <;> rfl
    | reserved why =>
      have hne : ¬∃ i : Instr, CmdFields.ofWord c = i.fields := by
        rintro ⟨i, hi⟩
        cases hd.symm.trans (decodeFields_eq_instr_iff.2 hi.symm)
      simp only [Instr.exists_iff, Instr.fields, CmdFields.ofWord, CmdFields.mk.injEq, exists_and_left, exists_eq',
        and_true, not_or, BitVec.ofNat_eq_ofNat] at hne
      simp [hne, Decoded.instr?]

/-- Settles O2: the reserved words are the ones whose fields are ill formed, and their step raises IllegalCommand. -/
theorem reservedWordsAreIllegal : Obligations.ReservedWordsAreIllegal := by
  unfold Obligations.ReservedWordsAreIllegal
  exact ⟨fun c => exists_decodeFields_eq_reserved_iff.trans (CmdFields.wellFormed_eq_false_iff _),
    fun s c why rest => step_reserved, rfl⟩

/-- Settles O3: a row covers the words of its mnemonic, a word decodes to one command, and no mnemonic names two rows. -/
theorem decoderMatchesOpcodeTable : Obligations.DecoderMatchesOpcodeTable := by
  unfold Obligations.DecoderMatchesOpcodeTable
  refine ⟨fun c row => OpcodeRow.covers_iff_exists_decode, ?disjoint⟩
  case disjoint =>
    intro c row row' hrow hrow' hc hc'
    obtain ⟨i, hi, hm⟩ := (OpcodeRow.covers_iff_exists_decode hrow).1 hc
    obtain ⟨i', hi', hm'⟩ := (OpcodeRow.covers_iff_exists_decode hrow').1 hc'
    cases hi.symm.trans hi'
    exact opcodeTable_mnemonic_inj row hrow row' hrow' (hm.symm.trans hm')

/-- Settles O8: a command word completes with one effect, which answers once; a response word is two joined fields. -/
theorem responseWordFormat : Obligations.ResponseWordFormat := by
  unfold Obligations.ResponseWordFormat
  refine ⟨?answers, ?fields, fun d => ⟨rfl, rfl⟩, rfl, rfl, rfl, rfl⟩
  case answers =>
    intro s c rest hinv hp
    obtain ⟨t, ht⟩ := step_command_total hinv.sa_length hp
    obtain ⟨e, rfl⟩ := step_command_effect hp ht
    obtain ⟨r, hr⟩ := e.on_responses { s with pending := rest }
    exact ⟨_, r, ht, hr⟩
  case fields =>
    intro r
    exact ⟨BitVec.extractLsb'_append_eq_left, BitVec.extractLsb'_append_eq_right, Response.data_eq_zero_of_code_ne_zero,
      r.code_le_four⟩

/-- Settles O4, by evaluating the decoder and the response words on the examples of R60. -/
theorem exampleWordsDecode : Obligations.ExampleWordsDecode := by
  unfold Obligations.ExampleWordsDecode
  decide

/-- Settles O5: four joined bytes are the bytes shifted to their places, written from the other end. -/
theorem pseudoCommandsExpand : Obligations.PseudoCommandsExpand := by
  unfold Obligations.PseudoCommandsExpand
  refine ⟨?seedb, fun i k => ⟨List.length_replicate, fun j => List.eq_of_mem_replicate⟩⟩
  case seedb =>
    intro b0 b1 b2 b3
    have hreverse : ∀ x y z w : U32, x ||| y ||| z ||| w = w ||| z ||| y ||| x := by intros; ac_rfl
    rw [Instr.seedb, ← BitVec.setWidth_eq (b3 ++ b2 ++ b1 ++ b0),
      BitVec.setWidth_append_append_append_eq_shiftLeft_setWidth_or, hreverse]

end Sys2Proof.Machine

namespace Sys2Proof.Machine

/-- Settles O50: the configuration of a default entry is the standard one of its exponent, and that is legal. -/
theorem defaultTableLegal : Obligations.DefaultTableLegal := by
  unfold Obligations.DefaultTableLegal
  exact fun sel _ => standard_wellFormed sel

end Sys2Proof.Machine

namespace Sys2Proof.Machine

section lanes
variable {w v : Word} {s k i : Nat}

/-! ### The vector shifts lane by lane (R10, R12) -/

theorem lane_pack (f : Nat → U32) (hk : k < 4) : lane (pack (f 0) (f 1) (f 2) (f 3)) k = f k := by
  obtain rfl | rfl | rfl | rfl : k = 0 ∨ k = 1 ∨ k = 2 ∨ k = 3 := by omega
  · exact lane_pack_zero ..
  · exact lane_pack_one ..
  · exact lane_pack_two ..
  · exact lane_pack_three ..

theorem lane_srl32 (w : Word) (s : Nat) (hk : k < 4) : lane (srl32 w s) k = lane w k >>> s :=
  lane_pack (fun m => lane w m >>> s) hk

theorem lane_sll32 (w : Word) (s : Nat) (hk : k < 4) : lane (sll32 w s) k = lane w k <<< s :=
  lane_pack (fun m => lane w m <<< s) hk

theorem lane_maskV (rom : RomEntry) (hk : k < 4) : lane (maskV rom) k = rom.msk k :=
  lane_pack rom.msk hk

/-! ### The byte shifts across lanes (R12, R75) -/

theorem getLsbD_lane_of_lt (w : Word) (k : Nat) (hi : i < 32) : (lane w k).getLsbD i = w.getLsbD (32 * k + i) := by
  rw [getLsbD_lane, decide_eq_true hi, Bool.true_and]

theorem getLsbD_eq_getLsbD_lane (w : Word) (j : Nat) : w.getLsbD j = (lane w (j / 32)).getLsbD (j % 32) := by
  rw [getLsbD_lane_of_lt w _ (Nat.mod_lt j (by omega)), Nat.div_add_mod]

/-- A bit of a left byte shift comes from `8s` places below, or is a zero that entered at the bottom. -/
theorem getLsbD_lane_shlB (w : Word) (s : Nat) (hk : k < 4) (hi : i < 32) :
    (lane (shlB w s) k).getLsbD i = (!decide (32 * k + i < 8 * s) && w.getLsbD (32 * k + i - 8 * s)) := by
  have hbit : 32 * k + i < 128 := by omega
  rw [getLsbD_lane_of_lt _ _ hi, shlB, BitVec.getLsbD_shiftLeft, decide_eq_true hbit, Bool.true_and]

/-- A bit of a right byte shift comes from `8s` places above. -/
theorem getLsbD_lane_shrB (w : Word) (s k : Nat) (hi : i < 32) :
    (lane (shrB w s) k).getLsbD i = w.getLsbD (8 * s + (32 * k + i)) := by
  rw [getLsbD_lane_of_lt _ _ hi, shrB, BitVec.getLsbD_ushiftRight]

/-- The low `8s` bits of a lane of a left byte shift come from the lane below, the others from the lane itself. -/
theorem lane_shlB (w : Word) (hs : s ≤ 3) (hk : k < 4) :
    lane (shlB w s) k = lane w k <<< (8 * s) ||| (if k = 0 then 0#32 else lane w (k - 1)) >>> (32 - 8 * s) := by
  apply BitVec.eq_of_getLsbD_eq
  intro i hi
  rw [getLsbD_lane_shlB w s hk hi, BitVec.getLsbD_or, BitVec.getLsbD_shiftLeft, BitVec.getLsbD_ushiftRight]
  by_cases hlow : i < 8 * s
  · split_ifs with hzero
    · have hin : 32 * k + i < 8 * s := by omega
      simp [hlow, hin]
    · have hin : ¬32 * k + i < 8 * s := by omega
      have hsrc : 32 * k + i - 8 * s = 32 * (k - 1) + (32 - 8 * s + i) := by omega
      rw [getLsbD_lane_of_lt w (k - 1) (by omega), hsrc]
      simp [hlow, hin]
  · have hin : ¬32 * k + i < 8 * s := by omega
    have hsrc : 32 * k + i - 8 * s = 32 * k + (i - 8 * s) := by omega
    rw [BitVec.getLsbD_of_ge (ite ..) _ (by omega), getLsbD_lane_of_lt w k (by omega), hsrc]
    simp [hi, hlow, hin]

/-- The high `8s` bits of a lane of a right byte shift come from the lane above, the others from the lane itself. -/
theorem lane_shrB (w : Word) (hs : s ≤ 3) :
    lane (shrB w s) k = lane w k >>> (8 * s) ||| (if k = 3 then 0#32 else lane w (k + 1)) <<< (32 - 8 * s) := by
  apply BitVec.eq_of_getLsbD_eq
  intro i hi
  rw [getLsbD_lane_shrB w s k hi, BitVec.getLsbD_or, BitVec.getLsbD_shiftLeft, BitVec.getLsbD_ushiftRight]
  by_cases hown : 8 * s + i < 32
  · have hsrc : 8 * s + (32 * k + i) = 32 * k + (8 * s + i) := by omega
    rw [getLsbD_lane_of_lt w k hown, hsrc]
    simp [show i < 32 - 8 * s by omega]
  · rw [BitVec.getLsbD_of_ge (lane w k) _ (by omega)]
    split_ifs with hthree
    · rw [BitVec.getLsbD_of_ge w _ (by omega)]
      simp
    · have hsrc : 8 * s + (32 * k + i) = 32 * (k + 1) + (i - (32 - 8 * s)) := by omega
      rw [getLsbD_lane_of_lt w (k + 1) (by omega), hsrc]
      simp [hi, show ¬i < 32 - 8 * s by omega]

theorem lane_shlB_congr (s : Nat) (hk : k < 4) (h : ∀ m ≤ k, lane w m = lane v m) :
    lane (shlB w s) k = lane (shlB v s) k := by
  apply BitVec.eq_of_getLsbD_eq
  intro i hi
  rw [getLsbD_lane_shlB w s hk hi, getLsbD_lane_shlB v s hk hi, getLsbD_eq_getLsbD_lane w, getLsbD_eq_getLsbD_lane v,
    h _ (by omega)]

theorem lane_shrB_congr (s : Nat) (h : ∀ m, k ≤ m → m < 4 → lane w m = lane v m) :
    lane (shrB w s) k = lane (shrB v s) k := by
  apply BitVec.eq_of_getLsbD_eq
  intro i hi
  rw [getLsbD_lane_shrB w s k hi, getLsbD_lane_shrB v s k hi]
  by_cases hin : 8 * s + (32 * k + i) < 128
  · rw [getLsbD_eq_getLsbD_lane w, getLsbD_eq_getLsbD_lane v, h _ (by omega) (by omega)]
  · rw [BitVec.getLsbD_of_ge w _ (by omega), BitVec.getLsbD_of_ge v _ (by omega)]

/-! ### The recurrence (R74, R75, R78) -/

theorem recur_eq (rom : RomEntry) (a b c d : Word) :
    recur rom a b c d =
      a ^^^ shlB a rom.sl2.toNat ^^^ (srl32 b rom.sr1.toNat &&& maskV rom) ^^^ shrB c rom.sr2.toNat
        ^^^ sll32 d rom.sl1.toNat := by
  simp only [recur]
  ac_rfl

theorem shlB_xor (w v : Word) (s : Nat) : shlB (w ^^^ v) s = shlB w s ^^^ shlB v s :=
  BitVec.shiftLeft_xor_distrib ..

theorem shrB_xor (w v : Word) (s : Nat) : shrB (w ^^^ v) s = shrB w s ^^^ shrB v s :=
  BitVec.ushiftRight_xor_distrib ..

theorem srl32_xor (w v : Word) (s : Nat) : srl32 (w ^^^ v) s = srl32 w s ^^^ srl32 v s :=
  word_ext fun k hk => by
    simp only [lane_xor, lane_srl32 _ _ hk, BitVec.ushiftRight_xor_distrib]

theorem sll32_xor (w v : Word) (s : Nat) : sll32 (w ^^^ v) s = sll32 w s ^^^ sll32 v s :=
  word_ext fun k hk => by
    simp only [lane_xor, lane_sll32 _ _ hk, BitVec.shiftLeft_xor_distrib]

theorem xor_and_distrib (w v m : Word) : (w ^^^ v) &&& m = (w &&& m) ^^^ (v &&& m) := by
  ext i
  simp only [BitVec.getElem_and, BitVec.getElem_xor, Bool.and_xor_distrib_right]

theorem recur_xor (rom : RomEntry) (a a' b b' c c' d d' : Word) :
    recur rom (a ^^^ a') (b ^^^ b') (c ^^^ c') (d ^^^ d') = recur rom a b c d ^^^ recur rom a' b' c' d' := by
  simp only [recur_eq, shlB_xor, shrB_xor, srl32_xor, sll32_xor, xor_and_distrib]
  ac_rfl

theorem lane_recur (rom : RomEntry) (a b c d : Word) (hk : k < 4) :
    lane (recur rom a b c d) k =
      lane a k ^^^ lane (shlB a rom.sl2.toNat) k ^^^ ((lane b k >>> rom.sr1.toNat) &&& rom.msk k) ^^^
        lane (shrB c rom.sr2.toNat) k ^^^ (lane d k <<< rom.sl1.toNat) := by
  simp only [recur_eq, lane_xor, lane_and, lane_srl32 _ _ hk, lane_sll32 _ _ hk, lane_maskV rom hk]

end lanes

/-! ### The statements of 41_recurrence.md -/

/-- Settles O12: the lanes of the closed form, each byte shift through its own lane lemma. -/
theorem recurrenceLaneByLane : Obligations.RecurrenceLaneByLane := by
  unfold Obligations.RecurrenceLaneByLane
  exact ⟨fun rom a b c d k => lane_recur rom a b c d, fun a s k _ => lane_shlB a, fun c s k _ hs _ => lane_shrB c hs,
    fun a a' s k => lane_shlB_congr s, fun c c' s k _ => lane_shrB_congr s⟩

/-- Settles O13: every term of the closed form is additive, and an operand alone is a sum with zero operands. -/
theorem recurrenceLinear : Obligations.RecurrenceLinear := by
  unfold Obligations.RecurrenceLinear
  refine ⟨recur_xor, fun rom a b c d => ?_⟩
  simp only [← recur_xor, BitVec.ofNat_eq_ofNat, BitVec.xor_zero, BitVec.zero_xor]

/-- Settles O11: the lines of R73, reordered. -/
theorem recurrenceClosedForm : Obligations.RecurrenceClosedForm := by
  unfold Obligations.RecurrenceClosedForm
  exact recur_eq

end Sys2Proof.Machine

namespace Sys2Proof.Machine

/-! ### The words of a regeneration as one sequence (R87)

The old words followed by the new ones are one sequence, in which each new word is RECUR of the words `N`, `N - POS1`, 2
and 1 places before it: the case splits of R87 only say on which side of the seam those words lie. -/

/-- Word `k` of the old array followed by the new one. -/
def wordSeq (old new : List Word) (k : Nat) : Word := (old ++ new).getD k 0#128

/-- Term `i + n` of a sequence is RECUR of the terms R87 names. -/
def RecursAt (rom : RomEntry) (n : Nat) (x : Nat → Word) (i : Nat) : Prop :=
  x (i + n) = recur rom (x i) (x (i + rom.pos1.toNat)) (x (i + n - 2)) (x (i + n - 1))

section sequence
variable {rom : RomEntry} {n i k : Nat} {sa sa' old new : List Word} {v r1 r2 : Word}

theorem getElem?_old (new : List Word) (h : k < old.length) : old[k]? = some (wordSeq old new k) := by
  rw [wordSeq, List.getD_append _ _ _ _ h, List.getD_eq_getElem _ _ h, List.getElem?_eq_getElem h]

theorem getElem?_new (old : List Word) (h : k < new.length) : new[k]? = some (wordSeq old new (k + old.length)) := by
  rw [wordSeq, List.getD_append_right _ _ _ _ (by omega), Nat.add_sub_cancel, List.getD_eq_getElem _ _ h,
    List.getElem?_eq_getElem h]

theorem wordSeq_set_of_ne (sa' : List Word) (h : k ≠ i) : wordSeq (sa.set i v) sa' k = wordSeq sa sa' k := by
  simp only [wordSeq, List.getD_eq_getElem?_getD, List.getElem?_append, List.getElem?_set_ne h.symm, List.length_set]

/-- What iteration `i` overwrites is no operand of a later iteration. -/
theorem recursAt_set_iff {j : Nat} (hn : 2 ≤ n) (hij : i < j) :
    RecursAt rom n (wordSeq (sa.set i v) sa') j ↔ RecursAt rom n (wordSeq sa sa') j := by
  have hseq (k : Nat) (hk : i < k) := wordSeq_set_of_ne (sa := sa) (v := v) sa' hk.ne'
  rw [RecursAt, RecursAt, hseq j hij, hseq (j + n) (by omega), hseq (j + rom.pos1.toNat) (by omega),
    hseq (j + n - 2) (by omega), hseq (j + n - 1) (by omega)]

/-- In iteration `i` the array, whose words before `i` are the new ones, is a ring that holds the terms from `i` on. -/
theorem getElem?_ring (hlen : sa.length = n) (hlen' : sa'.length = n) (hnew : ∀ m < i, sa'[m]? = sa[m]?) (hi : i < n)
    (hk : k < n) : sa[(i + k) % n]? = some (wordSeq sa sa' (i + k)) := by
  rcases Nat.lt_or_ge (i + k) n with hlt | hge
  · rw [Nat.mod_eq_of_lt hlt]
    exact getElem?_old sa' (by omega)
  · have hmod : (i + k) % n = i + k - n := by rw [Nat.mod_eq_sub_mod hge, Nat.mod_eq_of_lt (by omega)]
    have hterm := getElem?_new sa (show i + k - n < sa'.length by omega)
    rw [hlen, Nat.sub_add_cancel hge] at hterm
    rw [hmod, ← hnew _ (by omega), hterm]

theorem regenLoop_frame {todo : Nat} (hlen : sa.length = n) (hle : i + todo ≤ n)
    (h : regenLoop rom n todo i sa r1 r2 = some sa') : sa'.length = n ∧ ∀ k < i, sa'[k]? = sa[k]? := by
  obtain ⟨sa'', h'', hframe⟩ := regenLoop_total rom n todo i sa r1 r2 hlen hle
  cases h.symm.trans h''
  exact hframe

/-- One iteration writes the next term of the sequence, if the rolling pair holds the last two. -/
theorem regenLoop_succ_wordSeq {todo : Nat} (hpos : rom.pos1.toNat < n) (hlen : sa.length = n) (hi : i + (todo + 1) = n)
    (hr1 : r1 = wordSeq sa sa' (i + n - 2)) (hr2 : r2 = wordSeq sa sa' (i + n - 1))
    (h : regenLoop rom n (todo + 1) i sa r1 r2 = some sa') :
    RecursAt rom n (wordSeq sa sa') i ∧
      regenLoop rom n todo (i + 1) (sa.set i (wordSeq sa sa' (i + n))) r2 (wordSeq sa sa' (i + n)) = some sa' := by
  obtain ⟨hlen', hnew⟩ := regenLoop_frame hlen hi.le h
  obtain ⟨a, b, ha, hb, hloop⟩ := regenLoop_succ (rom := rom) (todo := todo) r1 r2 hlen (show i < n by omega)
  rw [hloop] at h
  have hterm : wordSeq sa sa' (i + n) = recur rom a b r1 r2 := by
    have hkept := (regenLoop_frame (List.length_set.trans hlen) (by omega) h).2 i (by omega)
    rw [List.getElem?_set_self (by omega), getElem?_new sa (by omega), hlen] at hkept
    exact Option.some.inj hkept
  rw [getElem?_old sa' (by omega)] at ha
  rw [getElem?_ring hlen hlen' hnew (by omega) hpos] at hb
  refine ⟨?_, hterm ▸ h⟩
  rw [RecursAt, hterm, ← Option.some.inj ha, ← Option.some.inj hb, hr1, hr2]

/-- Every iteration of the loop continues the sequence, if the rolling pair holds its last two terms. -/
theorem regenLoop_recursAt (hn : 2 ≤ n) (hpos : rom.pos1.toNat < n) (todo : Nat) :
    ∀ {i : Nat} {sa : List Word} {r1 r2 : Word}, i + todo = n → sa.length = n →
      r1 = wordSeq sa sa' (i + n - 2) → r2 = wordSeq sa sa' (i + n - 1) →
        regenLoop rom n todo i sa r1 r2 = some sa' → ∀ j, i ≤ j → j < n → RecursAt rom n (wordSeq sa sa') j := by
  induction todo with
  | zero => intro i sa r1 r2 hi _ _ _ _ j hij hj; omega
  | succ todo ih =>
    intro i sa r1 r2 hi hlen hr1 hr2 h j hij hj
    obtain ⟨hhead, htail⟩ := regenLoop_succ_wordSeq hpos hlen hi hr1 hr2 h
    rcases Nat.eq_or_lt_of_le hij with rfl | hlt
    · exact hhead
    · refine (recursAt_set_iff hn hlt).1 (ih (by omega) (List.length_set.trans hlen) ?_ ?_ htail j hlt hj)
      · rw [hr2, wordSeq_set_of_ne _ (by omega), show i + 1 + n - 2 = i + n - 1 by omega]
      · rw [wordSeq_set_of_ne _ (by omega), show i + 1 + n - 1 = i + n by omega]

/-- A regeneration continues the sequence of the old words by RECUR (R86, R87). -/
theorem regenWords_recursAt {cfg : Config} (hwf : cfg.WellFormed) (hlen : old.length = cfg.n)
    (h : regenWords cfg.rom cfg.n old = some new) (hi : i < cfg.n) : RecursAt cfg.rom cfg.n (wordSeq old new) i := by
  have hn := five_le_n cfg
  have h1 := getElem?_old new (show cfg.n - 2 < old.length by omega)
  have h2 := getElem?_old new (show cfg.n - 1 < old.length by omega)
  simp only [regenWords, saRead, h1, h2] at h
  exact regenLoop_recursAt (by omega) hwf.2.1 cfg.n (Nat.zero_add _) hlen (by rw [Nat.zero_add]) (by rw [Nat.zero_add]) h
    i (Nat.zero_le i) hi

end sequence

/-! ### Direct indexing (R88) -/

section direct
variable {rom : RomEntry} {n : Nat}

/-- The two loops agree where the rolling pair holds the words that direct indexing reads. -/
theorem regenDirectLoop_eq_regenLoop (hn : 2 ≤ n) (todo : Nat) :
    ∀ {i : Nat} {sa : List Word} {r1 r2 : Word}, i + todo ≤ n → sa.length = n →
      sa[(i + n - 2) % n]? = some r1 → sa[(i + n - 1) % n]? = some r2 →
        regenDirectLoop rom n todo i sa = regenLoop rom n todo i sa r1 r2 := by
  induction todo with
  | zero => intros; rfl
  | succ todo ih =>
    intro i sa r1 r2 hi hlen h1 h2
    obtain ⟨a, b, ha, hb, hloop⟩ := regenLoop_succ (rom := rom) (todo := todo) r1 r2 hlen (show i < n by omega)
    have hdirect : regenDirectLoop rom n (todo + 1) i sa =
        regenDirectLoop rom n todo (i + 1) (sa.set i (recur rom a b r1 r2)) := by
      simp only [regenDirectLoop, saRead, ha, hb, h1, h2, saWrite_of_lt (show i < sa.length by omega)]
    have hpair : (i + n - 1) % n ≠ i := by
      rcases Nat.eq_zero_or_pos i with rfl | hpos
      · rw [Nat.mod_eq_of_lt (by omega)]; omega
      · rw [Nat.mod_eq_sub_mod (by omega), Nat.mod_eq_of_lt (by omega)]; omega
    rw [hdirect, hloop]
    refine ih (by omega) (List.length_set.trans hlen) ?_ ?_
    · rw [show i + 1 + n - 2 = i + n - 1 by omega, List.getElem?_set_ne hpair.symm, h2]
    · rw [show i + 1 + n - 1 = i + n by omega, Nat.add_mod_right, Nat.mod_eq_of_lt (by omega),
        List.getElem?_set_self (by omega)]

theorem regenDirect_eq_regenWords {sa : List Word} (hn : 2 ≤ n) (hlen : sa.length = n) :
    regenDirect rom n sa = regenWords rom n sa := by
  have h1 := List.getElem?_eq_getElem (show n - 2 < sa.length by omega)
  have h2 := List.getElem?_eq_getElem (show n - 1 < sa.length by omega)
  simp only [regenWords, saRead, h1, h2]
  refine regenDirectLoop_eq_regenLoop hn n (by omega) hlen ?_ ?_
  · rw [Nat.zero_add, Nat.mod_eq_of_lt (by omega), h1]
  · rw [Nat.zero_add, Nat.mod_eq_of_lt (by omega), h2]

end direct

/-! ### With `SL2 >= 1` a regeneration can be undone (R90) -/

/-- A left byte shift by at least one byte has no fixed point but zero. -/
theorem eq_zero_of_shlB_eq_self {w : Word} {s : Nat} (hs : 1 ≤ s) (h : shlB w s = w) : w = 0#128 := by
  have hbit (m : Nat) : w.getLsbD m = false := by
    induction m using Nat.strong_induction_on with
    | _ m ih =>
      rw [← h, shlB, BitVec.getLsbD_shiftLeft]
      by_cases hm : m < 8 * s
      · simp [hm]
      · rw [ih (m - 8 * s) (by omega), Bool.and_false]
  exact BitVec.eq_of_getLsbD_eq fun m _ => by rw [hbit m, BitVec.getLsbD_zero]

/-- RECUR determines its first operand. -/
theorem recur_left_cancel {rom : RomEntry} (hsl2 : 1 ≤ rom.sl2.toNat) {a a' b c d : Word}
    (h : recur rom a b c d = recur rom a' b c d) : a = a' := by
  simp only [recur_eq, BitVec.xor_left_inj] at h
  have hsum : (a ^^^ a') ^^^ shlB (a ^^^ a') rom.sl2.toNat =
      (a ^^^ shlB a rom.sl2.toNat) ^^^ (a' ^^^ shlB a' rom.sl2.toNat) := by
    rw [shlB_xor]
    ac_rfl
  rw [h, BitVec.xor_self, BitVec.xor_eq_zero_iff] at hsum
  exact BitVec.xor_eq_zero_iff.1 (eq_zero_of_shlB_eq_self hsl2 hsum.symm)

section bijection
variable {cfg : Config} {old old' new : List Word}

/-- Two arrays that regenerate to the same one agree on the whole sequence: term by term, from the new words backwards,
each term is the first operand of a RECUR whose value and other operands agree already. -/
theorem wordSeq_eq_of_regenWords_eq (hwf : cfg.WellFormed) (hsl2 : 1 ≤ cfg.rom.sl2.toNat) (hlen : old.length = cfg.n)
    (hlen' : old'.length = cfg.n) (h : regenWords cfg.rom cfg.n old = some new)
    (h' : regenWords cfg.rom cfg.n old' = some new) (j : Nat) (hj : j ≤ cfg.n) :
    ∀ k, j ≤ k → k < 2 * cfg.n → wordSeq old new k = wordSeq old' new k := by
  have hpos := hwf.1
  have hlt := hwf.2.1
  have hn := five_le_n cfg
  have hnew := regenWords_length hlen h
  induction hj using Nat.decreasingInduction with
  | self =>
    intro k hk hk2
    have hterm := getElem?_new old (show k - cfg.n < new.length by omega)
    have hterm' := getElem?_new old' (show k - cfg.n < new.length by omega)
    rw [hlen, Nat.sub_add_cancel hk] at hterm
    rw [hlen', Nat.sub_add_cancel hk] at hterm'
    exact Option.some.inj (hterm.symm.trans hterm')
  | of_succ j hj ih =>
    intro k hk hk2
    rcases Nat.eq_or_lt_of_le hk with rfl | hlater
    · have hrec := regenWords_recursAt hwf hlen h hj
      have hrec' := regenWords_recursAt hwf hlen' h' hj
      rw [RecursAt, ih (j + cfg.n) (by omega) (by omega), ih (j + cfg.rom.pos1.toNat) (by omega) (by omega),
        ih (j + cfg.n - 2) (by omega) (by omega), ih (j + cfg.n - 1) (by omega) (by omega), hrec'] at hrec
      exact (recur_left_cancel hsl2 hrec).symm
    · exact ih k hlater hk2

theorem regenWords_inj (hwf : cfg.WellFormed) (hsl2 : 1 ≤ cfg.rom.sl2.toNat) (hlen : old.length = cfg.n)
    (hlen' : old'.length = cfg.n) (h : regenWords cfg.rom cfg.n old = some new)
    (h' : regenWords cfg.rom cfg.n old' = some new) : old = old' := by
  apply List.ext_getElem?
  intro k
  rcases Nat.lt_or_ge k cfg.n with hlt | hge
  · rw [getElem?_old new (by omega), getElem?_old new (by omega),
      wordSeq_eq_of_regenWords_eq hwf hsl2 hlen hlen' h h' 0 (Nat.zero_le _) k (Nat.zero_le k) (by omega)]
  · rw [List.getElem?_eq_none (by omega), List.getElem?_eq_none (by omega)]

/-- There are finitely many arrays of `N` words, so every one of them is a regenerated one. -/
theorem exists_regenWords_eq (hwf : cfg.WellFormed) (hsl2 : 1 ≤ cfg.rom.sl2.toNat) (hlen : new.length = cfg.n) :
    ∃ old : List Word, old.length = cfg.n ∧ regenWords cfg.rom cfg.n old = some new := by
  have : Finite Word := Finite.of_injective _ BitVec.toFin_injective
  choose! regen hregen hkeep using regenWords_total cfg
  have hinj : Set.InjOn regen {sa | sa.length = cfg.n} := fun old hold old' hold' heq =>
    regenWords_inj hwf hsl2 hold hold' (hregen old hold) (heq ▸ hregen old' hold')
  have hbij := ((List.finite_length_eq Word cfg.n).injOn_iff_bijOn_of_mapsTo hkeep).1 hinj
  obtain ⟨old, hold, rfl⟩ := hbij.surjOn hlen
  exact ⟨old, hold, hregen old hold⟩

end bijection

/-! ### The all-zero array (R91 (d)) -/

theorem recur_zero (rom : RomEntry) : recur rom 0#128 0#128 0#128 0#128 = 0#128 := by
  have h := recur_xor rom 0#128 0#128 0#128 0#128 0#128 0#128 0#128 0#128
  simpa only [BitVec.xor_self] using h

theorem regenLoop_replicate_zero (rom : RomEntry) (n todo : Nat) :
    ∀ i, i + todo ≤ n →
      regenLoop rom n todo i (List.replicate n 0#128) 0#128 0#128 = some (List.replicate n 0#128) := by
  induction todo with
  | zero => exact fun i _ => rfl
  | succ todo ih =>
    intro i hi
    obtain ⟨a, b, ha, hb, hloop⟩ :=
      regenLoop_succ (rom := rom) (todo := todo) 0#128 0#128 List.length_replicate (show i < n by omega)
    obtain rfl := List.eq_of_mem_replicate (List.mem_of_getElem? ha)
    obtain rfl := List.eq_of_mem_replicate (List.mem_of_getElem? hb)
    rw [hloop, recur_zero, List.set_replicate_self]
    exact ih (i + 1) (by omega)

theorem regenWords_replicate_zero (cfg : Config) :
    regenWords cfg.rom cfg.n (List.replicate cfg.n 0#128) = some (List.replicate cfg.n 0#128) := by
  have hn := five_le_n cfg
  have hread (k : Nat) (hk : k < cfg.n) : saRead (List.replicate cfg.n 0#128) k = some 0#128 :=
    List.getElem?_replicate_of_lt hk
  simp only [regenWords, hread (cfg.n - 2) (by omega), hread (cfg.n - 1) (by omega)]
  exact regenLoop_replicate_zero cfg.rom cfg.n cfg.n 0 (Nat.zero_add _).le

/-! ### The certified parity bit is 1 (R100, R102) -/

theorem certInner_xor (rom : RomEntry) (w v : Word) :
    certInner rom (w ^^^ v) = certInner rom w ^^^ certInner rom v := by
  have hdistrib (l m p : U32) : (l ^^^ m) &&& p = (l &&& p) ^^^ (m &&& p) := by
    ext i
    simp only [BitVec.getElem_and, BitVec.getElem_xor, Bool.and_xor_distrib_right]
  simp only [certInner, lane_xor, hdistrib]
  ac_rfl

theorem certFold_xor (x y : U32) : certFold (x ^^^ y) = certFold x ^^^ certFold y := by
  have hline (x y : U32) (k : Nat) : (x ^^^ y) ^^^ (x ^^^ y) >>> k = (x ^^^ x >>> k) ^^^ (y ^^^ y >>> k) := by
    rw [BitVec.ushiftRight_xor_distrib]
    ac_rfl
  simp only [certFold, hline]

theorem certParity_xor (rom : RomEntry) (w v : Word) :
    certParity rom (w ^^^ v) = (certParity rom w ^^ certParity rom v) := by
  rw [certParity, certInner_xor, certFold_xor, BitVec.getLsbD_xor]
  rfl

/-- The doubling loop ends on a bit that meets none only if it has tried and missed every bit in its reach (R102). -/
theorem doubleUntil_misses {p : U32} {fuel : Nat} :
    ∀ {work : U32}, doubleUntil p fuel work &&& p = 0#32 → ∀ m ≤ fuel, work <<< m &&& p = 0#32 := by
  induction fuel with
  | zero =>
    intro work h m hm
    rwa [Nat.le_zero.1 hm, BitVec.shiftLeft_zero]
  | succ fuel ih =>
    intro work h m hm
    by_cases hp : work &&& p = 0#32
    · rw [doubleUntil, if_pos hp] at h
      cases m with
      | zero => rwa [BitVec.shiftLeft_zero]
      | succ m => rw [Nat.add_comm, BitVec.shiftLeft_add]; exact ih h m (by omega)
    · rw [doubleUntil, if_neg hp] at h
      exact absurd h hp

theorem one_shiftLeft_and (p : U32) (m : Nat) : 1#32 <<< m &&& p = if p.getLsbD m then 1#32 <<< m else 0#32 := by
  rw [← BitVec.twoPow_eq, BitVec.and_comm, BitVec.and_twoPow]

/-- The bit `correct()` picks of a non-zero parity constant is a set bit of it. -/
theorem exists_lowestSetBit_eq {p : U32} (hp : p ≠ 0#32) :
    ∃ m < 32, lowestSetBit p = 1#32 <<< m ∧ p.getLsbD m = true := by
  obtain ⟨m, hm, he⟩ := lowestSetBit_eq_shiftLeft p
  refine ⟨m, hm, he, ?_⟩
  by_contra hbit
  have hmiss : lowestSetBit p &&& p = 0#32 := by rw [he, one_shiftLeft_and, if_neg hbit]
  refine hp (BitVec.eq_of_getLsbD_eq fun k hk => ?_)
  have hk0 := congrArg (·.getLsbD k) (doubleUntil_misses hmiss k (by omega))
  simpa [hk] using hk0

theorem certInner_one_shiftLeft (rom : RomEntry) {k m : Nat} (hk : k < 4) (hm : m < 32) :
    certInner rom (1#128 <<< (32 * k + m)) = 1#32 <<< m &&& rom.parity k := by
  have hlane (j : Nat) (hj : j < 4) := lane_one_shiftLeft (k := k) hm hj
  rw [certInner, hlane 0 (by omega), hlane 1 (by omega), hlane 2 (by omega), hlane 3 (by omega)]
  obtain rfl | rfl | rfl | rfl : k = 0 ∨ k = 1 ∨ k = 2 ∨ k = 3 := by omega
  all_goals simp [RomEntry.parity]

theorem certFold_one_shiftLeft : ∀ m < 32, (certFold (1#32 <<< m)).getLsbD 0 = true := by decide

/-- Flipping a bit of `SA[0]` that meets a set bit of its parity constant turns the parity bit over. -/
theorem certParity_flip {rom : RomEntry} {k m : Nat} (hk : k < 4) (hm : m < 32) (hbit : (rom.parity k).getLsbD m = true)
    (w : Word) : certParity rom (w ^^^ 1#128 <<< (32 * k + m)) = !certParity rom w := by
  have hone : certParity rom (1#128 <<< (32 * k + m)) = true := by
    rw [certParity, certInner_one_shiftLeft rom hk hm, one_shiftLeft_and, if_pos hbit, certFold_one_shiftLeft m hm]
  rw [certParity_xor, hone, Bool.xor_true]

/-- R64: some parity constant is not zero. -/
theorem exists_parity_ne_zero {n : Nat} {rom : RomEntry} (hwf : rom.WellFormed n) :
    ∃ k ∈ [0, 1, 2, 3], rom.parity k ≠ 0#32 := by
  by_contra hzero
  simp only [List.mem_cons, List.not_mem_nil, or_false, ne_eq, not_exists, not_and, not_not, forall_eq_or_imp,
    forall_eq] at hzero
  exact hwf.2.2 hzero

/-- Whatever array is certified, the parity bit of its `SA[0]` is then 1 (R100, R102). -/
theorem certifyWords_parity {n : Nat} {rom : RomEntry} {sa sa' : List Word} (hwf : rom.WellFormed n)
    (h : certifyWords rom sa = some sa') : ∃ w, sa'[0]? = some w ∧ certParity rom w = true := by
  cases sa with
  | nil => cases h
  | cons w ws =>
    have hpos : 0 < (w :: ws).length := Nat.succ_pos _
    have hlt : ∀ k ∈ [0, 1, 2, 3], k < 4 := by decide
    rw [certifyWords, saRead_eq_some hpos] at h
    dsimp only at h
    split at h
    · next hodd => exact ⟨w, (Option.some.inj h) ▸ rfl, hodd⟩
    · next heven =>
      rcases correctFrom_cases rom hpos [0, 1, 2, 3] hlt with ⟨-, hzero⟩ | ⟨k, hk, hp, hc⟩
      · obtain ⟨k, hk, hp⟩ := exists_parity_ne_zero hwf
        exact absurd (hzero k hk) hp
      · obtain ⟨m, hm, hlow, hbit⟩ := exists_lowestSetBit_eq hp
        cases h.symm.trans hc
        refine ⟨_, List.getElem?_set_self hpos, ?_⟩
        rw [hlow, setLane_xor_one_shiftLeft _ hm, certParity_flip (hlt k hk) hm hbit]
        simpa using heven

/-- A certified array is not all zero: the parity bit of the zero word is 0. -/
theorem certifyWords_ne_zero {n : Nat} {rom : RomEntry} {sa sa' : List Word} (hwf : rom.WellFormed n)
    (h : certifyWords rom sa = some sa') : sa' ≠ List.replicate n 0#128 := by
  rintro rfl
  obtain ⟨w, hw, hodd⟩ := certifyWords_parity hwf h
  obtain rfl := List.eq_of_mem_replicate (List.mem_of_getElem? hw)
  have heven : certParity rom 0#128 = false := by
    simpa using certParity_xor rom 0#128 0#128
  exact Bool.false_ne_true (heven.symm.trans hodd)

/-- With `SL2 >= 1` only the all-zero array regenerates to the all-zero array. -/
theorem regenWords_ne_zero {cfg : Config} {sa sa' : List Word} (hwf : cfg.WellFormed) (hsl2 : 1 ≤ cfg.rom.sl2.toNat)
    (hlen : sa.length = cfg.n) (h : regenWords cfg.rom cfg.n sa = some sa') (hsa : sa ≠ List.replicate cfg.n 0#128) :
    sa' ≠ List.replicate cfg.n 0#128 := by
  rintro rfl
  exact hsa (regenWords_inj hwf hsl2 hlen List.length_replicate h (regenWords_replicate_zero cfg))

/-! ### A seeded engine never comes to hold the all-zero array (R91 (d)) -/

section zeroFree
variable {s t : State}

/-- If the engine is seeded, its array is not all zero. -/
def State.ZeroFree (s : State) : Prop := s.seeded = true → s.sa ≠ List.replicate s.cfg.n 0#128

/-- A command other than SEED leaves the engine as it is while that is not seeded (R130). -/
theorem EngineKept.of_exec_not_seeded {i : Instr} (hs : s.seeded = false) (hseed : ∀ x, i ≠ .seed x)
    (h : exec i s = .next t) : EngineKept s t := by
  by_cases hreg : ∃ r, i = .rdreg r
  · obtain ⟨r, rfl⟩ := hreg
    rcases execRdreg_next h with ⟨-, h⟩ | ⟨reg, -, ⟨-, -, h⟩ | ⟨-, h⟩⟩
    · exact .of_raise h
    · exact .of_raise h
    · exact .of_respond h
  · exact .of_raise ((exec_of_not_seeded hs hseed (not_exists.1 hreg)).symm.trans h)

theorem execSeed_ne_zero {x : U32} (hwf : s.cfg.WellFormed) (h : execSeed x s = .next t) :
    t.sa ≠ List.replicate s.cfg.n 0#128 := by
  obtain ⟨u, hc, h⟩ := execSeed_next h
  exact certifyWords_ne_zero hwf (certify_respond_next hc h).1

theorem execCert_ne_zero (hwf : s.cfg.WellFormed) (hs : s.seeded = true) (h : execCert s = .next t) :
    t.sa ≠ List.replicate s.cfg.n 0#128 := by
  have hgate : ¬(s.seeded = false ∧ raise .notSeeded s = .next t) := by simp [hs]
  obtain ⟨-, u, hc, h⟩ := (execCert_next h).resolve_left hgate
  exact certifyWords_ne_zero hwf (certify_respond_next hc h).1

/-- SEED and CERT leave a certified array; a command that does neither keeps the array or regenerates it. -/
theorem exec_zeroFree {i : Instr} (hinv : s.Inv) (hsl2 : 1 ≤ s.cfg.rom.sl2.toNat) (hz : s.ZeroFree)
    (h : exec i s = .next t) : t.ZeroFree := by
  intro ht
  rw [(SameShape.of_exec h).cfg_eq]
  by_cases hseed : ∃ x, i = .seed x
  · obtain ⟨x, rfl⟩ := hseed
    exact execSeed_ne_zero hinv.cfg_wf h
  have hs : s.seeded = true := by
    by_contra hs
    have hkept := EngineKept.of_exec_not_seeded (by simpa using hs) (not_exists.1 hseed) h
    exact hs (hkept.seeded_eq ▸ ht)
  have hregen {sa' : List Word} (hr : regenWords s.cfg.rom s.cfg.n s.sa = some sa') :=
    regenWords_ne_zero hinv.cfg_wf hsl2 hinv.sa_length hr (hz hs)
  cases CursorWay.of_exec h with
  | kept hw => exact hw.sa_eq ▸ hz hs
  | certified => exact execCert_ne_zero hinv.cfg_wf hs h
  | read32 _ hw => exact hw.sa_eq ▸ hz hs
  | read64 _ hw => exact hw.sa_eq ▸ hz hs
  | regenerated hw => exact hregen hw.sa_eq
  | regenerated32 _ hw => exact hregen hw.sa_eq
  | regenerated64 _ hw => exact hregen hw.sa_eq
  | seeded => exact absurd ⟨_, rfl⟩ hseed

theorem raise_zeroFree {f : SyncFault} (hz : s.ZeroFree) (h : raise f s = .next t) : t.ZeroFree := by
  rw [raise_eq_next] at h
  exact h ▸ hz

theorem step_zeroFree (hinv : s.Inv) (hsl2 : 1 ≤ s.cfg.rom.sl2.toNat) (hz : s.ZeroFree) (h : step s = .next t) :
    t.ZeroFree := by
  rcases step_cases s with ⟨-, hs⟩ | ⟨rest, -, hs⟩ | ⟨c, rest, i, -, -, hs⟩ | ⟨c, rest, why, -, -, hs⟩
  · cases hs.symm.trans h
    exact hz
  · cases hs.symm.trans h
    exact nofun
  · exact exec_zeroFree (withPending_inv hinv rest) hsl2 hz (hs.symm.trans h)
  · exact raise_zeroFree (s := { s with pending := rest }) hz (hs.symm.trans h)

end zeroFree

/-! ### The statements of 42_regenerate.md -/

/-- Settles O18: every step keeps `ZeroFree`. A certified `SA[0]` has odd parity, and as regeneration is injective no
other array regenerates to the all-zero one. -/
theorem seededArrayNeverZero : Obligations.SeededArrayNeverZero := by
  unfold Obligations.SeededArrayNeverZero
  exact ⟨fun cfg _ => regenWords_replicate_zero cfg, fun s t hinv hsl2 hz h => step_zeroFree hinv hsl2 hz h⟩

/-- Settles O14: regeneration completes on every array of `N` words, whatever the cursor. -/
theorem regenCommand : Obligations.RegenCommand := by
  unfold Obligations.RegenCommand
  refine ⟨rfl, fun s hinv => ⟨fun hs => exec_of_not_seeded hs nofun nofun, fun hs => ?_⟩⟩
  obtain ⟨sa', hw, hlen, hr⟩ := regenerate_total hinv.sa_length
  exact ⟨sa', hw, hlen, execRegen_of_regenerate hs hr⟩

/-- Settles O15: the new words continue the sequence of the old ones; each clause says where a term of it lies. -/
theorem regenerationOperandValues : Obligations.RegenerationOperandValues := by
  unfold Obligations.RegenerationOperandValues
  intro s hinv hs
  obtain ⟨sa', hw, hlen', hr⟩ := regenerate_total hinv.sa_length
  refine ⟨_, execRegen_of_regenerate hs hr, hlen', fun i hi => ?_⟩
  have hn := five_le_n s.cfg
  have hlen := hinv.sa_length
  have hpos := hinv.cfg_wf.2.1
  have hold {k m : Nat} (hk : k < s.cfg.n) (hm : k = m) : s.sa[k]? = some (wordSeq s.sa sa' m) :=
    hm ▸ getElem?_old sa' (hlen ▸ hk)
  have hnew {k m : Nat} (hk : k < s.cfg.n) (hm : k + s.cfg.n = m) : sa'[k]? = some (wordSeq s.sa sa' m) := by
    rw [getElem?_new s.sa (hlen' ▸ hk), hlen, hm]
  refine ⟨_, _, _, _, _, hnew hi rfl, regenWords_recursAt hinv.cfg_wf hlen hw hi, hold hi rfl, ?b, ?c, ?d⟩
  case b =>
    split_ifs with hsplit
    · exact hold (by omega) rfl
    · exact hnew (by omega) (by omega)
  case c =>
    split_ifs with hzero hone
    · exact hold (by omega) (by omega)
    · exact hold (by omega) (by omega)
    · exact hnew (by omega) (by omega)
  case d =>
    split_ifs with hzero
    · exact hold (by omega) (by omega)
    · exact hnew (by omega) (by omega)

/-- Settles O16: at every iteration the rolling pair holds the two words before the one written. -/
theorem rollingPairEqualsDirectIndexing : Obligations.RollingPairEqualsDirectIndexing := by
  unfold Obligations.RollingPairEqualsDirectIndexing
  intro s hinv
  have hn := five_le_n s.cfg
  rw [regenDirect_eq_regenWords (by omega) hinv.sa_length]
  rfl

/-- Settles O17: each term of the sequence of words is determined by the later ones, so regeneration is injective, and
there are finitely many arrays of `N` words. -/
theorem regenerationBijective : Obligations.RegenerationBijective := by
  unfold Obligations.RegenerationBijective
  intro cfg hwf hsl2 new hlen
  obtain ⟨old, hold, hr⟩ := exists_regenWords_eq hwf hsl2 hlen
  exact ⟨old, ⟨hold, hr⟩, fun old' ⟨hold', hr'⟩ => regenWords_inj hwf hsl2 hold' hold hr' hr⟩

end Sys2Proof.Machine

namespace Sys2Proof.Machine

/-! ### The seeding recurrence and the lanes it fills (R93, R95) -/

theorem iterate_toNat (prev i : U32) :
    (iterate prev i).toNat = (1812433253 * (prev ^^^ (prev >>> 30)).toNat + i.toNat) % 2 ^ 32 := by
  rw [iterate, BitVec.toNat_add, BitVec.toNat_mul, Nat.mod_add_mod]
  rfl

/-- The lanes in R95's lane form: lane 0 is the seed, and each later lane comes from the one before it. -/
def seedLane (seed : U32) : Nat → U32
  | 0 => seed
  | j + 1 => iterate (seedLane seed j) (BitVec.ofNat 32 (j + 1))

/-- One word of the word-by-word form holds the next four lanes, and the running scalar is the lane after them. -/
theorem seedWords_succ (seed : U32) (todo w : Nat) :
    seedWords (todo + 1) w (seedLane seed (4 * w)) =
      pack (seedLane seed (4 * w)) (seedLane seed (4 * w + 1)) (seedLane seed (4 * w + 2))
          (seedLane seed (4 * w + 3)) ::
        seedWords todo (w + 1) (seedLane seed (4 * (w + 1))) :=
  rfl

/-- The lanes after the first word are the lanes of the other words. -/
theorem memRead1_cons_add_four (w : Word) (ws : List Word) (j : Nat) : memRead1 (w :: ws) (j + 4) = memRead1 ws j := by
  simp [memRead1, saRead]

theorem memRead1_seedWords (seed : U32) (todo : Nat) :
    ∀ w j, j < 4 * todo →
      memRead1 (seedWords todo w (seedLane seed (4 * w))) j = some (seedLane seed (4 * w + j)) := by
  induction todo with
  | zero => exact fun w j hj => absurd hj (by omega)
  | succ todo ih =>
    intro w j hj
    rw [seedWords_succ]
    by_cases hfirst : j < 4
    · have hword : j / 4 = 0 := by omega
      rw [memRead1_of_word (by rw [hword]; rfl), Nat.mod_eq_of_lt hfirst]
      exact congrArg some (lane_pack (fun k => seedLane seed (4 * w + k)) hfirst)
    · obtain ⟨i, rfl⟩ : ∃ i, j = i + 4 := ⟨j - 4, by omega⟩
      have hlane : 4 * (w + 1) + i = 4 * w + (i + 4) := by omega
      rw [memRead1_cons_add_four, ih (w + 1) i (by omega), hlane]

theorem memRead1_seedExpand {n j : Nat} (seed : U32) (hj : j < 4 * n) :
    memRead1 (seedExpand n seed) j = some (seedLane seed j) := by
  have hlane := memRead1_seedWords seed n 0 j hj
  rwa [Nat.mul_zero, Nat.zero_add] at hlane

/-! ### What SEED leaves (R94, R97) -/

/-- SEED writes the certified expansion and the cursor `4N`, whatever the state was. -/
theorem exec_seed_written (seed : U32) (s : State) :
    ∃ sa', certifyWords s.cfg.rom (seedExpand s.cfg.n seed) = some sa' ∧ sa'.length = s.cfg.n ∧
      exec (.seed seed) s = .next ((Effect.written sa' (BitVec.ofNat 13 s.cfg.lanes) 0).on s) := by
  have hlen := seedExpand_length s.cfg.n seed
  have hpos : 0 < (seedExpand s.cfg.n seed).length := by have := five_le_n s.cfg; omega
  obtain ⟨sa', hw, hlen', -⟩ := certifyWords_total s.cfg.rom hpos
  exact ⟨sa', hw, hlen'.trans hlen, execSeed_of_certify (certify_eq_some.2 ⟨sa', hw, rfl⟩)⟩

/-! ### The parity of a number of 1 bits (R101) -/

/-- Whether an odd number of the first `n` bits are 1. -/
def oddOnes (p : Nat → Bool) (n : Nat) : Bool := decide ((List.range n).countP p % 2 = 1)

theorem decide_add_odd (a b : Nat) : decide ((a + b) % 2 = 1) = (decide (a % 2 = 1) ^^ decide (b % 2 = 1)) := by
  rw [Bool.eq_iff_iff, Bool.xor_iff_ne, ne_eq, decide_eq_decide, decide_eq_true_eq]
  omega

/-- The bits split into the first `m` and the `n` after them. -/
theorem oddOnes_add (p : Nat → Bool) (m n : Nat) :
    oddOnes p (m + n) = (oddOnes p m ^^ oddOnes (fun i => p (m + i)) n) := by
  rw [oddOnes, List.range_add, List.countP_append, List.countP_map, decide_add_odd]
  rfl

theorem oddOnes_one (p : Nat → Bool) : oddOnes p 1 = p 0 := by
  cases hp : p 0 <;> simp [oddOnes, hp]

theorem oddOnes_congr {p q : Nat → Bool} {n : Nat} (h : ∀ i < n, p i = q i) : oddOnes p n = oddOnes q n := by
  rw [oddOnes, List.countP_congr fun i hi => by rw [h i (List.mem_range.1 hi)], oddOnes]

theorem oddOnes_xor (p q : Nat → Bool) (n : Nat) :
    oddOnes (fun i => p i ^^ q i) n = (oddOnes p n ^^ oddOnes q n) := by
  induction n with
  | zero => rfl
  | succ n ih =>
    simp only [oddOnes_add _ n 1, oddOnes_one, ih, Bool.xor_assoc, Bool.xor_left_comm]

theorem oddOnes_getLsbD_xor {w : Nat} (x y : BitVec w) (n : Nat) :
    oddOnes (x ^^^ y).getLsbD n = (oddOnes x.getLsbD n ^^ oddOnes y.getLsbD n) := by
  rw [← oddOnes_xor]
  exact oddOnes_congr fun i _ => BitVec.getLsbD_xor

/-- One line of the fold: the upper half of `2k` bits is added to the lower half, which keeps the parity. -/
theorem oddOnes_fold (x : U32) (k : Nat) : oddOnes (x ^^^ x >>> k).getLsbD k = oddOnes x.getLsbD (k + k) := by
  rw [oddOnes_getLsbD_xor, oddOnes_add, oddOnes_congr fun i _ => BitVec.getLsbD_ushiftRight x k i]

/-- The five lines of the fold bring the parity of 32 bits down to one bit. -/
theorem certFold_getLsbD_zero (inner : U32) : (certFold inner).getLsbD 0 = oddOnes inner.getLsbD 32 := by
  rw [← oddOnes_one (certFold inner).getLsbD]
  simp only [certFold, oddOnes_fold]

/-- The bits of a word are the bits of its four lanes. -/
theorem oddOnes_word (w : Word) :
    oddOnes w.getLsbD 128 =
      (oddOnes (lane w 0).getLsbD 32 ^^ oddOnes (lane w 1).getLsbD 32 ^^ oddOnes (lane w 2).getLsbD 32
        ^^ oddOnes (lane w 3).getLsbD 32) := by
  have hlane (k : Nat) : oddOnes (fun i => w.getLsbD (32 * k + i)) 32 = oddOnes (lane w k).getLsbD 32 :=
    oddOnes_congr fun i hi => (getLsbD_lane_of_lt w k hi).symm
  rw [oddOnes_add _ 96 32, oddOnes_add _ 64 32, oddOnes_add _ 32 32, ← hlane 0, ← hlane 1, ← hlane 2, ← hlane 3]
  simp only [Nat.mul_zero, Nat.zero_add]

/-- The parity of `inner` is the parity of `SA[0] & PARITYV`. -/
theorem oddOnes_certInner (rom : RomEntry) (w : Word) :
    oddOnes (certInner rom w).getLsbD 32 = oddOnes (w &&& parityV rom).getLsbD 128 := by
  rw [oddOnes_word]
  simp only [certInner, oddOnes_getLsbD_xor, lane_and, parityV, lane_pack_zero, lane_pack_one,
    lane_pack_two, lane_pack_three]

/-! ### The bit the correction flips (R102) -/

/-- `t` is the position of the lowest 1 bit of `p`. -/
structure IsLowestSetBit (p : U32) (t : Nat) : Prop where
  lt : t < 32
  set : p.getLsbD t = true
  below : ∀ u < t, p.getLsbD u = false

theorem exists_isLowestSetBit {p : U32} (hp : p ≠ 0#32) : ∃ t, IsLowestSetBit p t := by
  have hset : ∃ t, p.getLsbD t = true := by
    obtain ⟨t, -, -, ht⟩ := exists_lowestSetBit_eq hp
    exact ⟨t, ht⟩
  exact ⟨Nat.find hset, BitVec.lt_of_getLsbD (Nat.find_spec hset), Nat.find_spec hset,
    fun u hu => by simpa using Nat.find_min hset hu⟩

/-- The doubling loop passes every bit below the lowest set bit and stops there. -/
theorem doubleUntil_of_isLowestSetBit {p : U32} {t : Nat} (ht : IsLowestSetBit p t) (fuel : Nat) :
    ∀ k ≤ t, t ≤ k + fuel → doubleUntil p fuel (1#32 <<< k) = 1#32 <<< t := by
  induction fuel with
  | zero =>
    intro k hk hfuel
    rw [doubleUntil, Nat.le_antisymm hk hfuel]
  | succ fuel ih =>
    intro k hk hfuel
    rcases Nat.lt_or_eq_of_le hk with hlt | rfl
    · rw [doubleUntil, one_shiftLeft_and, ht.below k hlt, if_pos (by rfl), ← BitVec.shiftLeft_add]
      exact ih (k + 1) hlt (by omega)
    · have hne : 1#32 <<< k ≠ 0#32 := by
        intro hzero
        simpa [ht.lt] using congrArg (·.getLsbD k) hzero
      rw [doubleUntil, one_shiftLeft_and, if_pos ht.set, if_neg hne]

theorem lowestSetBit_of_isLowestSetBit {p : U32} {t : Nat} (ht : IsLowestSetBit p t) : lowestSetBit p = 1#32 <<< t :=
  doubleUntil_of_isLowestSetBit ht 31 0 (Nat.zero_le t) (by have := ht.lt; omega)

theorem and_neg_of_isLowestSetBit {p : U32} {t : Nat} (ht : IsLowestSetBit p t) : p &&& -p = 1#32 <<< t := by
  apply BitVec.eq_of_getLsbD_eq
  intro i hi
  rw [BitVec.getLsbD_and, BitVec.getLsbD_neg, ← BitVec.twoPow_eq, BitVec.getLsbD_twoPow]
  rcases Nat.lt_trichotomy i t with hlt | rfl | hgt
  · simp [ht.below i hlt, hlt.ne']
  · have hbelow : ¬∃ j < i, p.getLsbD j = true := by
      rintro ⟨j, hj, hset⟩
      simp [ht.below j hj] at hset
    simp [ht.set, hbelow, hi]
  · have hbelow : ∃ j < i, p.getLsbD j = true := ⟨t, hgt, ht.set⟩
    simp [hbelow, hi, hgt.ne]

/-- Lanes whose parity constant is zero are passed over. -/
theorem correctFrom_append_of_zero {rom : RomEntry} (sa : List Word) {ks : List Nat}
    (hzero : ∀ k ∈ ks, rom.parity k = 0#32) (ks' : List Nat) :
    correctFrom rom sa (ks ++ ks') = correctFrom rom sa ks' := by
  induction ks with
  | nil => rfl
  | cons k ks ih =>
    obtain ⟨hk, hks⟩ := List.forall_mem_cons.1 hzero
    simp only [List.cons_append, correctFrom, hk, ne_eq, not_true_eq_false, if_false, ih hks]

/-- The scan stops at a non-zero parity constant and flips that constant's lowest 1 bit in its lane of `SA[0]`. -/
theorem correctFrom_cons_of_ne_zero {rom : RomEntry} {k : Nat} (hk : k < 4) (hne : rom.parity k ≠ 0#32) (w : Word)
    (ws : List Word) (ks : List Nat) :
    correctFrom rom (w :: ws) (k :: ks) = some (setLane w k (lane w k ^^^ lowestSetBit (rom.parity k)) :: ws) := by
  have hword : k / 4 = 0 := Nat.div_eq_of_lt hk
  have hlane : k % 4 = k := Nat.mod_eq_of_lt hk
  simp [correctFrom, hne, memRead1, memWrite1, saRead, saWrite, hword, hlane]

/-- The bit of `SA[0]` that `correct()` flips is bit `t` of lane `k`: the lowest 1 bit of the first non-zero parity
constant. -/
structure IsCorrectionBit (rom : RomEntry) (k t : Nat) : Prop where
  lt : k < 4
  below : ∀ m < k, rom.parity m = 0#32
  lowest : IsLowestSetBit (rom.parity k) t

theorem exists_isCorrectionBit {rom : RomEntry}
    (hrom : ¬(rom.parity1 = 0#32 ∧ rom.parity2 = 0#32 ∧ rom.parity3 = 0#32 ∧ rom.parity4 = 0#32)) :
    ∃ k t, IsCorrectionBit rom k t := by
  have hk : ∃ k, k < 4 ∧ rom.parity k ≠ 0#32 := by
    by_contra hnone
    have hzero (k : Nat) (hk : k < 4) : rom.parity k = 0#32 := by
      by_contra hp
      exact hnone ⟨k, hk, hp⟩
    exact hrom ⟨hzero 0 (by omega), hzero 1 (by omega), hzero 2 (by omega), hzero 3 (by omega)⟩
  obtain ⟨hlt, hp⟩ := Nat.find_spec hk
  obtain ⟨t, ht⟩ := exists_isLowestSetBit hp
  refine ⟨Nat.find hk, t, hlt, fun m hm => ?_, ht⟩
  by_contra hpm
  exact Nat.find_min hk hm ⟨by omega, hpm⟩

theorem correct_of_isCorrectionBit {rom : RomEntry} {k t : Nat} (hb : IsCorrectionBit rom k t) (w : Word)
    (ws : List Word) : correct rom (w :: ws) = some ((w ^^^ 1#128 <<< (32 * k + t)) :: ws) := by
  have hne : rom.parity k ≠ 0#32 := by
    intro hzero
    simpa [hzero] using hb.lowest.set
  have hscan : [0, 1, 2, 3] = List.range k ++ k :: List.range' (k + 1) (3 - k) := by
    have hk := hb.lt
    interval_cases k <;> rfl
  rw [correct, hscan, correctFrom_append_of_zero _ fun m hm => hb.below m (List.mem_range.1 hm)]
  rw [← setLane_xor_one_shiftLeft w hb.lowest.lt, ← lowestSetBit_of_isLowestSetBit hb.lowest]
  exact correctFrom_cons_of_ne_zero hb.lt hne w ws _

theorem certifyWords_cons (rom : RomEntry) (w : Word) (ws : List Word) :
    certifyWords rom (w :: ws) = if certParity rom w = true then some (w :: ws) else correct rom (w :: ws) :=
  rfl

/-- An array certified once is left as it is by a second certification (R103). -/
theorem certifyWords_certified {n : Nat} {rom : RomEntry} {sa sa' : List Word} (hwf : rom.WellFormed n)
    (h : certifyWords rom sa = some sa') : certifyWords rom sa' = some sa' := by
  obtain ⟨w, hw, hodd⟩ := certifyWords_parity hwf h
  cases sa' with
  | nil => cases hw
  | cons v vs =>
    obtain rfl := Option.some.inj hw
    rw [certifyWords_cons, if_pos hodd]

/-- What CERT of a seeded engine leaves, from what certification makes of its array. -/
theorem exec_cert_of_certifyWords {s : State} {sa' : List Word} (hs : s.seeded = true)
    (h : certifyWords s.cfg.rom s.sa = some sa') :
    exec .cert s = .next { s with sa := sa', responses := s.responses ++ [.ok 0] } :=
  execCert_of_certify hs (certify_eq_some.2 ⟨sa', h, rfl⟩)

/-! ### The statements of 43_seed_cert.md -/

/-- Settles O19: `iterate` is computed modulo 2^32, and a right shift by 30 is a division by 2^30. -/
theorem iterateFormula : Obligations.IterateFormula := by
  unfold Obligations.IterateFormula
  refine ⟨iterate_toNat, fun prev => ?_, by decide, by decide, by decide, by decide⟩
  rw [BitVec.toNat_ushiftRight, Nat.shiftRight_eq_div_pow]

/-- Settles O20: lane `j` of the word-by-word expansion is `seedLane seed j`. -/
theorem seedExpansionLaneForm : Obligations.SeedExpansionLaneForm := by
  unfold Obligations.SeedExpansionLaneForm
  intro n seed
  refine ⟨seedExpand_length n seed, ?first, ?later⟩
  case first =>
    split_ifs with hn
    · rw [hn]
      rfl
    · exact memRead1_seedExpand seed (by omega)
  case later =>
    intro j hpos hj
    obtain ⟨i, rfl⟩ : ∃ i, j = i + 1 := ⟨j - 1, by omega⟩
    exact ⟨_, memRead1_seedExpand seed (by omega), memRead1_seedExpand seed hj⟩

/-- Settles O21: certification of the `N` expanded words completes, whatever the state held before. -/
theorem seedCommand : Obligations.SeedCommand := by
  unfold Obligations.SeedCommand
  intro seed s
  obtain ⟨sa', hw, hlen, he⟩ := exec_seed_written seed s
  exact ⟨encode_eq_or rfl (by decide), sa', _, hw, hlen, ofNat_lanes_toNat s.cfg, he⟩

/-- Settles O22: the array and the cursor SEED writes are functions of the seed and the configuration. -/
theorem seedForgetsHistory : Obligations.SeedForgetsHistory := by
  unfold Obligations.SeedForgetsHistory
  intro seed s t hcfg
  obtain ⟨sa, hs, -, hes⟩ := exec_seed_written seed s
  obtain ⟨sa', ht, -, het⟩ := exec_seed_written seed t
  rw [← hcfg] at ht het
  cases hs.symm.trans ht
  exact ⟨_, _, hes, het, rfl, rfl, rfl, rfl, rfl, rfl, rfl, rfl⟩

/-- Settles O23: every line of the fold keeps the parity while it halves the number of bits. -/
theorem certificationBitIsParity : Obligations.CertificationBitIsParity := by
  unfold Obligations.CertificationBitIsParity
  refine ⟨certFold_getLsbD_zero, fun rom w => ?_⟩
  rw [certParity, certFold_getLsbD_zero, oddOnes_certInner]
  rfl

/-- Settles O24: the scan stops at the first non-zero constant and the doubling loop at that constant's lowest 1 bit. -/
theorem correctionFlipsOneFixedBit : Obligations.CorrectionFlipsOneFixedBit := by
  unfold Obligations.CorrectionFlipsOneFixedBit
  refine ⟨?work, ?flip, ?default, certifyWords_cons, ?zero⟩
  case work =>
    intro p hp
    obtain ⟨t, ht⟩ := exists_isLowestSetBit hp
    rw [lowestSetBit_of_isLowestSetBit ht, and_neg_of_isLowestSetBit ht]
  case flip =>
    intro rom hrom
    obtain ⟨k, t, hb⟩ := exists_isCorrectionBit hrom
    exact ⟨k, hb.lt, t, hb.lowest.lt, hb.below, hb.lowest.set, hb.lowest.below, correct_of_isCorrectionBit hb⟩
  case default =>
    intro sel
    have hset : ((RomTable.standard sel).parity 0).getLsbD 0 = true := by
      cases sel <;> rfl
    exact correct_of_isCorrectionBit ⟨by omega, by simp, by omega, hset, by simp⟩
  case zero =>
    intro rom h1 h2 h3 h4 sa
    have hzero : ∀ k ∈ [0, 1, 2, 3], rom.parity k = 0#32 := by
      simp [RomEntry.parity, h1, h2, h3, h4]
    exact correctFrom_append_of_zero sa hzero []

/-- Settles O25: certification keeps a first word with odd parity and flips the correction bit of any other. -/
theorem certCommand : Obligations.CertCommand := by
  unfold Obligations.CertCommand
  refine ⟨rfl, fun s hinv => ⟨fun hs => exec_of_not_seeded hs nofun nofun, fun hs => ?_⟩⟩
  obtain ⟨k, t, hb⟩ := exists_isCorrectionBit hinv.cfg_wf.2.2
  obtain ⟨w, ws, hsa⟩ : ∃ w ws, s.sa = w :: ws := by
    have hn := five_le_n s.cfg
    exact List.exists_cons_of_length_pos (by rw [hinv.sa_length]; omega)
  have hcert : certifyWords s.cfg.rom s.sa = if certParity s.cfg.rom w = true then some (w :: ws) else
      correct s.cfg.rom (w :: ws) := by
    rw [hsa, certifyWords_cons]
  by_cases hodd : certParity s.cfg.rom w = true
  · rw [if_pos hodd] at hcert
    exact ⟨w, ws, w, hsa, exec_cert_of_certifyWords hs hcert, fun _ => rfl,
      fun heven => absurd (heven.symm.trans hodd) Bool.false_ne_true, .inl rfl⟩
  · have hcorrect := correct_of_isCorrectionBit hb w ws
    rw [if_neg hodd, hcorrect] at hcert
    have hbit : 32 * k + t < 128 := by have := hb.lt; have := hb.lowest.lt; omega
    exact ⟨w, ws, _, hsa, exec_cert_of_certifyWords hs hcert, fun h => absurd h hodd, fun _ => hcorrect,
      .inr ⟨_, hbit, rfl⟩⟩

/-- Settles O26: the first run leaves odd parity, so the second changes nothing. -/
theorem certificationIdempotent : Obligations.CertificationIdempotent := by
  unfold Obligations.CertificationIdempotent
  intro s hinv hs
  have hpos : 0 < s.sa.length := by have := five_le_n s.cfg; have := hinv.sa_length; omega
  obtain ⟨sa', hw, -⟩ := certifyWords_total s.cfg.rom hpos
  exact ⟨_, _, exec_cert_of_certifyWords hs hw,
    exec_cert_of_certifyWords hs (certifyWords_certified hinv.cfg_wf hw), rfl, certifyWords_flips hw⟩

end Sys2Proof.Machine

namespace Sys2Proof.Machine

/-! ### The two reads (R107, R108) -/

section reads
variable {s t u : State}

theorem take32_of_lane {v : U32} (hv : s.lane? s.idx.toNat = some v) :
    take32 s = .next { s with idx := s.idx + 1, responses := s.responses ++ [.ok (v.setWidth 64)] } := by
  have hv : memRead1 s.sa s.idx.toNat = some v := hv
  simp only [take32, hv, respond, answer]

theorem take64_of_lanes {lo hi : U32} (hlo : s.lane? s.idx.toNat = some lo)
    (hhi : s.lane? (s.idx.toNat + 1) = some hi) :
    take64 s = .next { s with
      idx := s.idx + 2
      responses := s.responses ++ [.ok (lo.setWidth 64 ||| hi.setWidth 64 <<< 32)] } := by
  have hread : memRead2 s.sa s.idx.toNat = some (hi ++ lo) := memRead2_of_lanes hlo hhi
  simp only [take64, hread, respond, answer, append_eq_setWidth_or_shiftLeft]

theorem exec_pop32_of_lane {v : U32} (hs : s.seeded = true) (hle : s.idx.toNat ≤ s.cfg.lanes - 1)
    (hv : s.lane? s.idx.toNat = some v) :
    exec .pop32 s = .next { s with idx := s.idx + 1, responses := s.responses ++ [.ok (v.setWidth 64)] } :=
  (execPop32_of_le hs hle).trans (take32_of_lane hv)

theorem exec_pop64_of_lanes {lo hi : U32} (hs : s.seeded = true) (hle : s.idx.toNat ≤ s.cfg.lanes - 2)
    (hlo : s.lane? s.idx.toNat = some lo) (hhi : s.lane? (s.idx.toNat + 1) = some hi) :
    exec .pop64 s = .next { s with
      idx := s.idx + 2
      responses := s.responses ++ [.ok (lo.setWidth 64 ||| hi.setWidth 64 <<< 32)] } :=
  (execPop64_of_le hs hle).trans (take64_of_lanes hlo hhi)

/-- Every address below `4N` holds a lane of an array of `N` words (R39). -/
theorem exists_memRead1 {cfg : Config} {sa : List Word} {j : Nat} (hlen : sa.length = cfg.n) (hj : j < cfg.lanes) :
    ∃ v, memRead1 sa j = some v :=
  ⟨_, memRead1_eq_some (by rw [hlen]; exact hj)⟩

/-- POP32 with a lane left (R107). -/
theorem exec_pop32_of_room (hlen : s.sa.length = s.cfg.n) (hs : s.seeded = true) (hroom : s.idx.toNat < s.cfg.lanes) :
    ∃ v, s.lane? s.idx.toNat = some v ∧ (s.idx + 1).toNat = s.idx.toNat + 1 ∧
      exec .pop32 s = .next { s with
        idx := s.idx + 1, responses := s.responses ++ [.ok (v.setWidth 64)] } := by
  obtain ⟨v, hv⟩ := exists_memRead1 hlen hroom
  exact ⟨v, hv, idx_add_one_toNat hroom, exec_pop32_of_lane hs (by omega) hv⟩

/-- POP64 with two lanes left (R108). -/
theorem exec_pop64_of_room (hlen : s.sa.length = s.cfg.n) (hs : s.seeded = true)
    (hroom : s.idx.toNat + 1 < s.cfg.lanes) :
    ∃ lo hi, s.lane? s.idx.toNat = some lo ∧ s.lane? (s.idx.toNat + 1) = some hi ∧
      (s.idx + 2).toNat = s.idx.toNat + 2 ∧
      exec .pop64 s = .next { s with
        idx := s.idx + 2
        responses := s.responses ++ [.ok (lo.setWidth 64 ||| hi.setWidth 64 <<< 32)] } := by
  obtain ⟨lo, hlo⟩ := exists_memRead1 hlen (Nat.lt_of_succ_lt hroom)
  obtain ⟨hi, hhi⟩ := exists_memRead1 hlen hroom
  exact ⟨lo, hi, hlo, hhi, idx_add_two_toNat hroom, exec_pop64_of_lanes hs (by omega) hlo hhi⟩

/-! ### The NEXT commands in terms of the POP commands (R111, R112, R114) -/

theorem exec_next32_eq_pop32 (hs : s.seeded = true) (hroom : s.idx.toNat < s.cfg.lanes) :
    exec .next32 s = exec .pop32 s :=
  (execNext32_of_regenerateAt hs (regenerateAt_of_lt hroom)).trans (execPop32_of_le hs (by omega)).symm

theorem exec_next64_eq_pop64 (hs : s.seeded = true) (hroom : s.idx.toNat + 1 < s.cfg.lanes) :
    exec .next64 s = exec .pop64 s :=
  (execNext64_of_regenerateAt hs (regenerateAt_of_lt (by omega))).trans (execPop64_of_le hs (by omega)).symm

/-- NEXT32 with no lane left reads lane 0 of the regenerated array (R111). -/
theorem exec_next32_of_full (hlen : s.sa.length = s.cfg.n) (hs : s.seeded = true)
    (hfull : s.cfg.lanes ≤ s.idx.toNat) :
    ∃ sa' v, regenWords s.cfg.rom s.cfg.n s.sa = some sa' ∧ memRead1 sa' 0 = some v ∧
      exec .next32 s = .next { s with
        sa := sa', idx := 1, responses := s.responses ++ [.ok (v.setWidth 64)] } := by
  have hlanes := twenty_le_lanes s.cfg
  obtain ⟨sa', hw, hlen', hr⟩ := regenerate_total hlen
  obtain ⟨v, hv⟩ := exists_memRead1 (j := 0) hlen' (by omega)
  exact ⟨sa', v, hw, hv, (execNext32_of_regenerateAt hs ((regenerateAt_of_le hfull).trans hr)).trans
    (take32_of_lane hv)⟩

/-- NEXT64 with fewer than two lanes left reads lanes 0 and 1 of the regenerated array (R112, R113). -/
theorem exec_next64_of_full (hlen : s.sa.length = s.cfg.n) (hs : s.seeded = true)
    (hfull : s.cfg.lanes ≤ s.idx.toNat + 1) :
    ∃ sa' lo hi, regenWords s.cfg.rom s.cfg.n s.sa = some sa' ∧ memRead1 sa' 0 = some lo ∧
      memRead1 sa' 1 = some hi ∧
      exec .next64 s = .next { s with
        sa := sa'
        idx := 2
        responses := s.responses ++ [.ok (lo.setWidth 64 ||| hi.setWidth 64 <<< 32)] } := by
  have hlanes := twenty_le_lanes s.cfg
  obtain ⟨sa', hw, hlen', hr⟩ := regenerate_total hlen
  obtain ⟨lo, hlo⟩ := exists_memRead1 (j := 0) hlen' (by omega)
  obtain ⟨hi, hhi⟩ := exists_memRead1 (j := 1) hlen' (by omega)
  exact ⟨sa', lo, hi, hw, hlo, hhi, (execNext64_of_regenerateAt hs ((regenerateAt_of_le (by omega)).trans hr)).trans
    (take64_of_lanes hlo hhi)⟩

/-- Regeneration on demand writes nothing but the array and the cursor (R89). -/
theorem regenerateAt_frame {threshold : Nat} (h : regenerateAt threshold s = some u) :
    ∃ sa' idx', u = { s with sa := sa', idx := idx' } := by
  rcases regenerateAt_eq_some.1 h with ⟨-, rfl⟩ | ⟨-, hr⟩
  · exact ⟨_, _, rfl⟩
  · obtain ⟨sa', -, rfl⟩ := regenerate_eq_some.1 hr
    exact ⟨sa', 0, rfl⟩

/-- A NEXT command of a seeded engine answers `OK` and leaves the phase and the sticky bits (R115 (a)). -/
theorem exec_next_answers {i : Instr} (hi : i = .next32 ∨ i = .next64) (hs : s.seeded = true)
    (h : exec i s = .next t) :
    t.seeded = true ∧ t.fault = s.fault ∧ ∃ d, t.responses = s.responses ++ [.ok d] := by
  have hgate : ¬(s.seeded = false ∧ raise .notSeeded s = .next t) := by simp [hs]
  rcases hi with rfl | rfl
  · obtain ⟨-, u, hu, ht⟩ := (execNext32_next h).resolve_left hgate
    obtain ⟨sa', idx', rfl⟩ := regenerateAt_frame hu
    obtain ⟨v, -, rfl⟩ := take32_next ht
    exact ⟨hs, rfl, _, rfl⟩
  · obtain ⟨-, u, hu, ht⟩ := (execNext64_next h).resolve_left hgate
    obtain ⟨sa', idx', rfl⟩ := regenerateAt_frame hu
    obtain ⟨v, -, rfl⟩ := take64_next ht
    exact ⟨hs, rfl, _, rfl⟩

/-! ### The lanes a successful read takes (R115 (c)) -/

/-- A command that raised a fault has not answered `OK`. -/
theorem raise_responses_ne_ok {f : SyncFault} {d : U64} (h : raise f s = .next t) :
    t.responses ≠ s.responses ++ [.ok d] := by
  rw [raise_eq_next] at h
  simp [h]

/-- A read that answers `OK` is one of the two shared reads after regeneration on demand, with the lanes it needs left. -/
theorem exec_read_cases {i : Instr} {d : U64} (hi : i = .pop32 ∨ i = .pop64 ∨ i = .next32 ∨ i = .next64)
    (h : exec i s = .next t) (hok : t.responses = s.responses ++ [.ok d]) :
    ∃ threshold u, regenerateAt threshold s = some u ∧ u.idx.toNat + lanesTaken i ≤ u.cfg.lanes ∧
      (lanesTaken i = 1 ∧ take32 u = .next t ∨ lanesTaken i = 2 ∧ take64 u = .next t) := by
  have hlanes := twenty_le_lanes s.cfg
  have hfault {f : SyncFault} (hr : raise f s = .next t) : False := raise_responses_ne_ok hr hok
  rcases hi with rfl | rfl | rfl | rfl
  · rcases execPop32_next h with ⟨-, hr⟩ | ⟨-, ⟨-, hr⟩ | ⟨hle, ht⟩⟩
    · exact (hfault hr).elim
    · exact (hfault hr).elim
    · have hroom : s.idx.toNat < s.cfg.lanes := by omega
      exact ⟨_, s, regenerateAt_of_lt hroom, hroom, .inl ⟨rfl, ht⟩⟩
  · rcases execPop64_next h with ⟨-, hr⟩ | ⟨-, ⟨-, hr⟩ | ⟨hle, ht⟩⟩
    · exact (hfault hr).elim
    · exact (hfault hr).elim
    · have hroom : s.idx.toNat + 1 < s.cfg.lanes := by omega
      exact ⟨_, s, regenerateAt_of_lt (Nat.lt_of_succ_lt hroom), hroom, .inr ⟨rfl, ht⟩⟩
  · rcases execNext32_next h with ⟨-, hr⟩ | ⟨-, u, hu, ht⟩
    · exact (hfault hr).elim
    · exact ⟨_, u, hu, regenerateAt_room hu le_rfl (by decide), .inl ⟨rfl, ht⟩⟩
  · rcases execNext64_next h with ⟨-, hr⟩ | ⟨-, u, hu, ht⟩
    · exact (hfault hr).elim
    · exact ⟨_, u, hu, regenerateAt_room hu (show _ - 1 + 2 ≤ _ by omega) (by decide), .inr ⟨rfl, ht⟩⟩

/-- The array and the cursor a read starts from: the old ones, or the regenerated array and 0. -/
theorem regenerateAt_source {threshold : Nat} (h : regenerateAt threshold s = some u) :
    (u.sa = s.sa ∧ u.idx.toNat = s.idx.toNat) ∨
      (regenWords s.cfg.rom s.cfg.n s.sa = some u.sa ∧ u.idx.toNat = 0) := by
  rcases regenerateAt_eq_some.1 h with ⟨-, rfl⟩ | ⟨-, hr⟩
  · exact .inl ⟨rfl, rfl⟩
  · obtain ⟨sa', hw, rfl⟩ := regenerate_eq_some.1 hr
    exact .inr ⟨hw, rfl⟩

end reads

/-! ### Runs of commands (R159) -/

section runs
variable {s t : State} {i : Instr}

theorem Effect.on_with_pending (e : Effect) (s : State) (p : List HostEvent) :
    e.on { s with pending := p } = { e.on s with pending := p } := by
  cases e <;> rfl

/-- No command looks at the events that are still pending. -/
theorem exec_with_pending (h : exec i s = .next t) (p : List HostEvent) :
    exec i { s with pending := p } = .next { t with pending := p } := by
  obtain ⟨e, rfl, he⟩ := exec_eq_on h
  rw [← Effect.on_with_pending]
  exact he _ ⟨rfl, rfl, fun _ => rfl, fun _ => rfl, fun _ _ => rfl⟩

theorem exec_pending (h : exec i s = .next t) : t.pending = s.pending := by
  obtain ⟨e, rfl, -⟩ := exec_eq_on h
  exact e.on_pending s

/-- A run that begins with a command's word goes on from the state the command leaves. -/
theorem runWords_encode_cons (h : exec i s = .next t) (cs : List CmdWord) :
    runWords (encode i :: cs) s = runWords cs t := by
  have hstep : step { s with pending := .command (encode i) :: (cs.map HostEvent.command ++ s.pending) } =
      .next { t with pending := cs.map HostEvent.command ++ s.pending } :=
    (step_instr rfl (decode_encode i)).trans (exec_with_pending h _)
  rw [runWords_cons _ _ _ _ hstep, runWords, exec_pending h]

end runs

/-! ### The 32-bit output stream (R116) -/

section stream
variable {s : State} {a0 : List Word} {q : Nat}

/-- The `q`-th value (from 0) of the 32-bit stream that starts from the array `a0` (R116). -/
def streamLane (cfg : Config) (a0 : List Word) (q : Nat) : Option U32 :=
  (regenTimes cfg.rom cfg.n (1 + q / cfg.lanes) a0).bind fun sa => memRead1 sa (q % cfg.lanes)

/-- `s` is a seeded engine that has delivered `q` values of the stream from `a0`. It has regenerated `c` times, and
delivered all lanes of the cycles before and those below the cursor; SEED's own array, whose lanes are never delivered,
counts as a cycle, so `c` is 0 and the cursor `4N` when `q` is 0 (R97). -/
structure StreamAt (a0 : List Word) (q : Nat) (s : State) : Prop where
  inv : s.Inv
  seeded : s.seeded = true
  cycle : ∃ c, regenTimes s.cfg.rom s.cfg.n c a0 = some s.sa ∧ s.idx.toNat + s.cfg.lanes * c = q + s.cfg.lanes

theorem streamLane_of_cycle {cfg : Config} {sa : List Word} {c j : Nat}
    (hsa : regenTimes cfg.rom cfg.n (c + 1) a0 = some sa) (hj : j < cfg.lanes) :
    streamLane cfg a0 (j + cfg.lanes * c) = memRead1 sa j := by
  obtain ⟨hdiv, hmod⟩ := (Nat.div_mod_unique (Nat.zero_lt_of_lt hj)).2 ⟨rfl, hj⟩
  rw [streamLane, hdiv, hmod, Nat.add_comm, hsa, Option.bind_some]

theorem regenTimes_succ {rom : RomEntry} {n c : Nat} {sa sa' : List Word} (h : regenTimes rom n c a0 = some sa)
    (hw : regenWords rom n sa = some sa') : regenTimes rom n (c + 1) a0 = some sa' := by
  simp only [regenTimes, h, hw]

/-- Each NEXT32 delivers the next value of the stream. -/
theorem StreamAt.exec_next32 (h : StreamAt a0 q s) :
    ∃ t v, exec .next32 s = .next t ∧ StreamAt a0 (q + 1) t ∧
      t.responses = s.responses ++ [.ok (v.setWidth 64)] ∧ streamLane s.cfg a0 q = some v := by
  obtain ⟨hinv, hs, c, hsa, hq⟩ := h
  rcases Nat.lt_or_eq_of_le (hinv.idx_le hs) with hroom | hfull
  case inl =>
    obtain ⟨v, hv, hidx, he⟩ := exec_pop32_of_room hinv.sa_length hs hroom
    have he := (exec_next32_eq_pop32 hs hroom).trans he
    cases c with
    | zero => omega -- before the first regeneration no lane is left
    | succ c =>
      obtain rfl : q = s.idx.toNat + s.cfg.lanes * c := by rw [Nat.mul_succ] at hq; omega
      refine ⟨_, v, he, ⟨exec_inv hinv he, hs, c + 1, hsa, ?_⟩, rfl, (streamLane_of_cycle hsa hroom).trans hv⟩
      rw [hidx, Nat.add_right_comm, hq, Nat.add_right_comm]
  case inr =>
    have hlanes := twenty_le_lanes s.cfg
    obtain ⟨sa', v, hw, hv, he⟩ := exec_next32_of_full hinv.sa_length hs hfull.ge
    have hsa' := regenTimes_succ hsa hw
    obtain rfl : q = 0 + s.cfg.lanes * c := by omega
    refine ⟨_, v, he, ⟨exec_inv hinv he, hs, c + 1, hsa', ?_⟩, rfl,
      (streamLane_of_cycle hsa' (by omega)).trans hv⟩
    show 1 + s.cfg.lanes * (c + 1) = 0 + s.cfg.lanes * c + 1 + s.cfg.lanes
    rw [Nat.mul_succ]
    omega

/-- A run of NEXT32 commands delivers the stream from where it stands. -/
theorem StreamAt.runWords_next32 (k : Nat) :
    ∀ {q : Nat} {s : State}, StreamAt a0 q s → ∃ (t : State) (vs : List U32),
      runWords (List.replicate k (encode .next32)) s = .next t ∧ vs.length = k ∧
      t.responses = s.responses ++ vs.map (fun v => .ok (v.setWidth 64)) ∧
      ∀ j < k, streamLane s.cfg a0 (q + j) = vs[j]? := by
  induction k with
  | zero =>
    intro q s _
    exact ⟨s, [], runWords_nil s, rfl, by simp, by simp⟩
  | succ k ih =>
    intro q s h
    obtain ⟨u, v, he, hu, hresp, hv⟩ := h.exec_next32
    obtain ⟨t, vs, hrun, hlen, hresp', hvs⟩ := ih hu
    refine ⟨t, v :: vs, (runWords_encode_cons he _).trans hrun, by simp [hlen], by simp [hresp', hresp], ?_⟩
    intro j hj
    cases j with
    | zero => exact hv
    | succ j =>
      rw [List.getElem?_cons_succ, ← hvs j (by omega), (SameShape.of_exec he).cfg_eq, Nat.add_right_comm,
        Nat.add_assoc]

/-- SEED leaves the engine at the start of the stream of its seed's certified array (R94, R116). -/
theorem exec_seed_streamAt (x : U32) (hinv : s.Inv) :
    ∃ t a0, seededArray s.cfg x = some a0 ∧ exec (.seed x) s = .next t ∧ StreamAt a0 0 t ∧ t.cfg = s.cfg ∧
      t.responses = s.responses ++ [.ok 0] := by
  obtain ⟨a0, hw, -, he⟩ := exec_seed_written x s
  have hidx : (BitVec.ofNat 13 s.cfg.lanes).toNat + s.cfg.lanes * 0 = 0 + s.cfg.lanes := by
    rw [ofNat_lanes_toNat, Nat.mul_zero, Nat.add_comm]
  exact ⟨_, a0, hw, he, ⟨exec_inv hinv he, rfl, 0, rfl, hidx⟩, rfl, rfl⟩

end stream

/-! ### The statements of 44_extract.md -/

/-- Settles O33, by induction on the list of commands: a NEXT command of a seeded engine completes
(`exec_total_of_seeded`), answers `OK` (`exec_next_answers`) and keeps what the next one needs. -/
theorem interleavingNeverFaults : Obligations.InterleavingNeverFaults := by
  unfold Obligations.InterleavingNeverFaults
  intro is
  induction is with
  | nil => exact fun s _ hinv hs hp => ⟨s, [], runWords_nil s, hinv, hs, rfl, hp, rfl, by simp⟩
  | cons i is ih =>
    intro s his hinv hs hp
    obtain ⟨hi, his⟩ := List.forall_mem_cons.1 his
    obtain ⟨u, he⟩ := exec_total_of_seeded i hinv.sa_length hs
    obtain ⟨hus, hufault, d, hud⟩ := exec_next_answers hi hs he
    obtain ⟨t, ds, hrun, htinv, hts, htfault, htp, hlen, hresp⟩ :=
      ih u his (exec_inv hinv he) hus ((exec_pending he).trans hp)
    exact ⟨t, d :: ds, (runWords_encode_cons he _).trans hrun, htinv, hts, htfault.trans hufault, htp,
      congrArg Nat.succ hlen, by simp [hresp, hud]⟩

/-- Settles O27, by the three positions of the cursor (`exec_pop32_of_room`). -/
theorem pop32Command : Obligations.Pop32Command := by
  unfold Obligations.Pop32Command
  refine ⟨rfl, fun s hinv => ⟨fun hs => exec_of_not_seeded hs nofun nofun, fun hs hfull => ?_,
    fun hs hroom => ?_⟩⟩
  · have hlanes := twenty_le_lanes s.cfg
    exact execPop32_of_lt hs (by omega)
  · obtain ⟨v, hv, hidx, he⟩ := exec_pop32_of_room hinv.sa_length hs hroom
    exact ⟨v, _, hv, hidx, he⟩

/-- Settles O28: one lane left is not enough, two are (`exec_pop64_of_room`). -/
theorem pop64Command : Obligations.Pop64Command := by
  unfold Obligations.Pop64Command
  refine ⟨rfl, fun s hinv => ⟨fun hs => exec_of_not_seeded hs nofun nofun, fun hs hfull => ?_,
    fun hs hroom => ?_⟩⟩
  all_goals have hlanes := twenty_le_lanes s.cfg
  · exact execPop64_of_lt hs (by omega)
  · obtain ⟨lo, hi, hlo, hhi, hidx, he⟩ := exec_pop64_of_room hinv.sa_length hs (by omega)
    exact ⟨lo, hi, _, hlo, hhi, hidx, he⟩

/-- Settles O29: with a lane left NEXT32 is POP32, with none left it reads the regenerated array. -/
theorem next32Command : Obligations.Next32Command := by
  unfold Obligations.Next32Command
  refine ⟨rfl, fun s hinv => ⟨fun hs => exec_of_not_seeded hs nofun nofun, fun hs hroom => ?_,
    fun hs hfull => exec_next32_of_full hinv.sa_length hs hfull.ge⟩⟩
  obtain ⟨v, hv, hidx, he⟩ := exec_pop32_of_room hinv.sa_length hs hroom
  exact ⟨v, _, hv, hidx, (exec_next32_eq_pop32 hs hroom).trans he⟩

/-- Settles O30: with two lanes left NEXT64 is POP64, with fewer left it reads the regenerated array. -/
theorem next64Command : Obligations.Next64Command := by
  unfold Obligations.Next64Command
  refine ⟨rfl, fun s hinv => ⟨fun hs => exec_of_not_seeded hs nofun nofun, fun hs hle => ?_,
    fun hs hfull => exec_next64_of_full hinv.sa_length hs (by omega)⟩⟩
  have hroom : s.idx.toNat + 1 < s.cfg.lanes := by have := twenty_le_lanes s.cfg; omega
  obtain ⟨lo, hi, hlo, hhi, hidx, he⟩ := exec_pop64_of_room hinv.sa_length hs hroom
  exact ⟨lo, hi, _, hlo, hhi, hidx, (exec_next64_eq_pop64 hs hroom).trans he⟩

/-- Settles O31: REGEN leaves the regenerated array with the cursor at 0, where the POP command reads what NEXT reads. -/
theorem nextIsRegenThenPop : Obligations.NextIsRegenThenPop := by
  unfold Obligations.NextIsRegenThenPop
  intro s hinv hs
  have hregen {sa' : List Word} (hw : regenWords s.cfg.rom s.cfg.n s.sa = some sa') :
      exec .regen s = .next (answer (.ok 0) { s with sa := sa', idx := 0 }) :=
    execRegen_of_regenerate hs (regenerate_eq_some.2 ⟨sa', hw, rfl⟩)
  refine ⟨exec_next32_eq_pop32 hs, exec_next64_eq_pop64 hs, fun hfull => ?_, fun hfull => ?_⟩
  · obtain ⟨sa', v, hw, hv, he⟩ := exec_next32_of_full hinv.sa_length hs hfull.ge
    have hpop := exec_pop32_of_lane (s := answer (.ok 0) { s with sa := sa', idx := 0 }) hs (Nat.zero_le _) hv
    exact ⟨_, _, _, hregen hw, hpop, rfl, he⟩
  · obtain ⟨sa', lo, hi, hw, hlo, hhi, he⟩ := exec_next64_of_full hinv.sa_length hs hfull
    have hpop := exec_pop64_of_lanes (s := answer (.ok 0) { s with sa := sa', idx := 0 }) hs (Nat.zero_le _) hlo hhi
    exact ⟨_, _, _, hregen hw, hpop, rfl, he⟩

/-- Settles O34: `j` is the cursor after regeneration on demand, where the shared read takes its lanes. -/
theorem readsTakeFreshLanes : Obligations.ReadsTakeFreshLanes := by
  unfold Obligations.ReadsTakeFreshLanes
  intro s t i d _ hi h hok
  obtain ⟨threshold, u, hu, hroom, hread⟩ := exec_read_cases hi h hok
  have hsource := regenerateAt_source hu
  obtain ⟨sa', idx', rfl⟩ := regenerateAt_frame hu
  rcases hread with ⟨hone, ht⟩ | ⟨htwo, ht⟩
  · rw [hone] at hroom ⊢
    have hidx := (Advanced.of_take32 ht hroom).idx_eq
    obtain ⟨v, hv, rfl⟩ := take32_next ht
    obtain rfl : v.setWidth 64 = d := by simpa using hok
    exact ⟨idx'.toNat, hidx, hidx ▸ hroom, hsource, .inl ⟨rfl, congrArg (Option.map _) hv⟩⟩
  · rw [htwo] at hroom ⊢
    have hidx := (Advanced.of_take64 ht hroom).idx_eq
    obtain ⟨v, hv, rfl⟩ := take64_next ht
    obtain rfl : v = d := by simpa using hok
    exact ⟨idx'.toNat, hidx, hidx ▸ hroom, hsource, .inr ⟨rfl, hv⟩⟩

/-- Settles O35: SEED stands at the start of the stream (`exec_seed_streamAt`), and each NEXT32 delivers its next value
(`StreamAt.exec_next32`). -/
theorem outputStream32 : Obligations.OutputStream32 := by
  unfold Obligations.OutputStream32
  intro s x k hinv _
  obtain ⟨u, a0, ha0, he, hstream, hcfg, hresp⟩ := exec_seed_streamAt x hinv
  obtain ⟨t, vs, hrun, hlen, hresp', hvs⟩ := hstream.runWords_next32 k
  refine ⟨t, a0, vs, ha0, (runWords_encode_cons he _).trans hrun, hlen, by simp [hresp', hresp], fun q hq => ?_⟩
  have hlane : streamLane s.cfg a0 q = some vs[q] := by
    rw [← hcfg, ← List.getElem?_eq_getElem, ← hvs q hq, Nat.zero_add]
  obtain ⟨sa, hsa, hv⟩ := Option.bind_eq_some_iff.1 hlane
  exact ⟨sa, hsa, (List.getElem?_eq_getElem _).trans hv.symm⟩

end Sys2Proof.Machine

namespace Sys2Proof

/-! ### The greatest exponent (R5) -/

theorem MexpSel.mexp_le (sel : MexpSel) : sel.mexp ≤ 216091 := by
  cases sel <;> decide

end Sys2Proof

namespace Sys2Proof.Machine

/-! ### The register numbers and the values they read (R21) -/

section registers
variable {r : Nat}

theorem Reg.ofNumber?_eq_none_iff : Reg.ofNumber? r = none ↔ 17 < r :=
  List.getElem?_eq_none_iff

theorem Reg.exists_ofNumber?_eq_some (h : r ≤ 17) : ∃ reg, Reg.ofNumber? r = some reg :=
  Option.ne_none_iff_exists'.1 (mt Reg.ofNumber?_eq_none_iff.1 h.not_gt)

/-- No register has two numbers, so the cursor's only number is 1. -/
theorem Reg.eq_one_of_ofNumber?_eq_idx (h : Reg.ofNumber? r = some .idx) : r = 1 := by
  have hsame : Reg.all[1]? = Reg.all[r]? := h.symm
  exact ((List.getElem?_inj (by decide) (by decide : Reg.all.Nodup)).1 hsame).symm

/-- The eighteen registers as numbers, in the order of R21: no value is cut to the register's 32 bits. -/
theorem map_reg_toNat (s : State) :
    Reg.all.map (fun reg => (s.reg reg).toNat) =
      [s.status.toNat, s.idx.toNat, s.cfg.sel.mexp, s.cfg.n, s.cfg.rom.pos1.toNat, s.cfg.rom.sl1.toNat,
        s.cfg.rom.sl2.toNat, s.cfg.rom.sr1.toNat, s.cfg.rom.sr2.toNat, s.cfg.rom.msk1.toNat, s.cfg.rom.msk2.toNat,
        s.cfg.rom.msk3.toNat, s.cfg.rom.msk4.toNat, s.cfg.rom.parity1.toNat, s.cfg.rom.parity2.toNat,
        s.cfg.rom.parity3.toNat, s.cfg.rom.parity4.toNat, s.cfg.sel.strap.toNat] := by
  have hmexp : s.cfg.sel.mexp < 2 ^ 32 := by have := s.cfg.sel.mexp_le; omega
  have hn : s.cfg.n < 2 ^ 32 := by have : 4 * s.cfg.n < 8192 := lanes_lt s.cfg; omega
  have hwide {w : Nat} (hw : w ≤ 32) (x : BitVec w) : (x.setWidth 32).toNat = x.toNat :=
    BitVec.toNat_setWidth_of_le hw
  simp only [Reg.all, List.map_cons, List.map_nil, State.reg, BitVec.toNat_ofNat, Nat.mod_eq_of_lt hmexp,
    Nat.mod_eq_of_lt hn, hwide, Nat.reduceLeDiff]

end registers

/-! ### The statements of 45_debug.md -/

/-- Settles O36: below `4N` an array of `N` words has a lane to answer with (`exists_memRead1`). -/
theorem peekCommand : Obligations.PeekCommand := by
  unfold Obligations.PeekCommand
  intro j s hinv
  refine ⟨encode_eq_or rfl (by decide), fun hs => exec_of_not_seeded hs nofun nofun,
    fun hs hj => execPeek_of_le hs hj, fun hs hj => ?_⟩
  obtain ⟨v, hv⟩ := exists_memRead1 hinv.sa_length hj
  exact ⟨v, hv, execPeek_of_lane hs hj hv⟩

/-- Settles O37, by what the number names: no register, the cursor of an engine that is not seeded, or a register whose
value stands at that place of R21's list (`map_reg_toNat`). -/
theorem rdregCommand : Obligations.RdregCommand := by
  unfold Obligations.RdregCommand
  intro r s
  refine ⟨encode_eq_or rfl (by decide), fun hr => execRdreg_of_none (Reg.ofNumber?_eq_none_iff.2 hr),
    fun hr hs => execRdreg_of_idx (hr ▸ rfl) hs, fun hr hidx => ?_⟩
  obtain ⟨reg, hreg⟩ := Reg.exists_ofNumber?_eq_some hr
  refine ⟨(s.reg reg).toNat, ?value, ?answer⟩
  case value =>
    rw [← map_reg_toNat, List.getElem?_map]
    exact congrArg (Option.map _) hreg
  case answer =>
    rw [BitVec.ofNat_toNat]
    exact execRdreg_of_reg hreg fun hi => hidx (Reg.eq_one_of_ofNumber?_eq_idx (hi ▸ hreg))

end Sys2Proof.Machine

namespace Sys2Proof.Machine

/-! ### What an answer tells of the effect (R131) -/

section effects
variable {e : Effect} {s : State}

/-- Only the effect that raises a fault answers it. -/
theorem Effect.eq_raised_of_responses {f : SyncFault} (h : (e.on s).responses = s.responses ++ [.fault f]) :
    e = .raised f := by
  cases e with
  | raised g => simpa [Effect.on] using h
  | observed d => simp [Effect.on] at h
  | written sa idx d => simp [Effect.on] at h

/-- Only a raised fault writes a sticky bit, and it does not answer `OK`. -/
theorem Effect.fault_on_of_responses {d : U64} (h : (e.on s).responses = s.responses ++ [.ok d]) :
    (e.on s).fault = s.fault := by
  cases e with
  | raised f => exact absurd h (raise_responses_ne_ok (raise_eq_raised f s))
  | observed d => rfl
  | written sa idx d => rfl

end effects

/-! ### The fault table of R130 and the host's duties of R135 -/

section faults
variable {s : State} {i : Instr} {f : SyncFault}

/-- Where the table gives a command a fault, the command raises it. -/
theorem exec_of_commandFault (h : commandFault i s = some f) : exec i s = raise f s := by
  have hlanes := twenty_le_lanes s.cfg
  cases i with
  | seed x => cases h
  | cert | regen | next32 | next64 =>
    obtain ⟨hs, rfl⟩ : s.seeded = false ∧ .notSeeded = f := by simpa [commandFault] using h
    exact exec_of_not_seeded hs nofun nofun
  | pop32 =>
    simp only [commandFault] at h
    split_ifs at h with hs hi <;> cases h
    · exact exec_of_not_seeded hs nofun nofun
    · exact execPop32_of_lt (Bool.eq_true_of_not_eq_false hs) (by omega)
  | pop64 =>
    simp only [commandFault] at h
    split_ifs at h with hs hi <;> cases h
    · exact exec_of_not_seeded hs nofun nofun
    · exact execPop64_of_lt (Bool.eq_true_of_not_eq_false hs) (by omega)
  | peek j =>
    simp only [commandFault] at h
    split_ifs at h with hs hj <;> cases h
    · exact exec_of_not_seeded hs nofun nofun
    · exact execPeek_of_le (Bool.eq_true_of_not_eq_false hs) hj
  | rdreg r =>
    simp only [commandFault] at h
    split_ifs at h with hr hidx <;> cases h
    · exact execRdreg_of_none (Reg.ofNumber?_eq_none_iff.2 hr)
    · exact execRdreg_of_idx (hidx.1 ▸ rfl) hidx.2

/-- The duties of a host are to keep off the faults of the table. -/
theorem hostObeys_iff_commandFault_eq_none (hinv : s.Inv) : HostObeys i s ↔ commandFault i s = none := by
  have hlanes := twenty_le_lanes s.cfg
  cases i with
  | seed x | cert | regen | next32 | next64 => simp [HostObeys, commandFault]
  | pop32 | pop64 =>
    cases hs : s.seeded with
    | false => simp [HostObeys, commandFault, hs]
    | true =>
      have hidx := hinv.idx_le hs
      simp only [HostObeys, commandFault, hs, Bool.true_eq_false, if_false, true_and, ite_eq_right_iff, reduceCtorEq,
        imp_false]
      omega
  | peek j => cases hs : s.seeded <;> simp [HostObeys, commandFault, hs]
  | rdreg r =>
    rcases Nat.lt_or_ge 17 r.toNat with hr | hr
    · simp [HostObeys, commandFault, hr]
    · simp [HostObeys, commandFault, hr, Nat.not_lt.2 hr]

theorem exec_next_answers_ok (hlen : s.sa.length = s.cfg.n) (hi : i = .next32 ∨ i = .next64) (hs : s.seeded = true) :
    ∃ t d, exec i s = .next t ∧ t.responses = s.responses ++ [.ok d] := by
  obtain ⟨t, ht⟩ := exec_total_of_seeded i hlen hs
  obtain ⟨-, -, d, hd⟩ := exec_next_answers hi hs ht
  exact ⟨t, d, ht, hd⟩

/-- A command whose duty the host obeys answers `OK`. -/
theorem exec_answers_ok (hinv : s.Inv) (h : HostObeys i s) :
    ∃ t d, exec i s = .next t ∧ t.responses = s.responses ++ [.ok d] := by
  have hlanes := twenty_le_lanes s.cfg
  have hlen := hinv.sa_length
  cases i with
  | seed x =>
    obtain ⟨sa', -, -, he⟩ := exec_seed_written x s
    exact ⟨_, _, he, rfl⟩
  | cert =>
    obtain ⟨sa', hw, -⟩ := certifyWords_total s.cfg.rom (sa := s.sa) (by have := five_le_n s.cfg; omega)
    exact ⟨_, _, exec_cert_of_certifyWords h hw, rfl⟩
  | regen =>
    obtain ⟨sa', -, -, hr⟩ := regenerate_total hlen
    exact ⟨_, _, execRegen_of_regenerate h hr, rfl⟩
  | pop32 =>
    obtain ⟨hs, hle⟩ := h
    obtain ⟨v, -, -, he⟩ := exec_pop32_of_room hlen hs (by omega)
    exact ⟨_, _, he, rfl⟩
  | pop64 =>
    obtain ⟨hs, hle⟩ := h
    obtain ⟨lo, hi, -, -, -, he⟩ := exec_pop64_of_room hlen hs (by omega)
    exact ⟨_, _, he, rfl⟩
  | next32 => exact exec_next_answers_ok hlen (.inl rfl) h
  | next64 => exact exec_next_answers_ok hlen (.inr rfl) h
  | peek j =>
    obtain ⟨hs, hj⟩ := h
    obtain ⟨v, hv⟩ := exists_memRead1 hlen hj
    exact ⟨_, _, execPeek_of_lane hs hj hv, rfl⟩
  | rdreg r =>
    obtain ⟨hr, hidx⟩ := h
    obtain ⟨reg, hreg⟩ := Reg.exists_ofNumber?_eq_some hr
    exact ⟨_, _, execRdreg_of_reg hreg fun hi => hidx (Reg.eq_one_of_ofNumber?_eq_idx (hi ▸ hreg)), rfl⟩

end faults

/-! ### The fault of a command word (R130, R132) -/

section words
variable {s : State} {c : CmdWord} {rest : List HostEvent}

theorem wordFault_of_instr {i : Instr} (hd : decode c = .instr i) : wordFault c s = commandFault i s := by
  simp only [wordFault, hd]

theorem wordFault_of_reserved {why : Reserved} (hd : decode c = .reserved why) :
    wordFault c s = some .illegalCommand := by
  simp only [wordFault, hd]

/-- The fault of a command does not depend on the events that are still pending. -/
theorem commandFault_with_pending (i : Instr) (s : State) :
    commandFault i { s with pending := rest } = commandFault i s := by
  cases i <;> rfl

theorem step_of_wordFault {f : SyncFault} (hp : s.pending = .command c :: rest) (h : wordFault c s = some f) :
    step s = raise f { s with pending := rest } := by
  cases hd : decode c with
  | instr i =>
    rw [wordFault_of_instr hd, ← commandFault_with_pending (rest := rest)] at h
    exact (step_instr hp hd).trans (exec_of_commandFault h)
  | reserved why =>
    obtain rfl := Option.some.inj ((wordFault_of_reserved hd).symm.trans h)
    exact step_reserved hp hd

theorem step_answers_ok (hinv : s.Inv) (hp : s.pending = .command c :: rest) (h : wordFault c s = none) :
    ∃ t d, step s = .next t ∧ t.responses = s.responses ++ [.ok d] := by
  cases hd : decode c with
  | instr i =>
    rw [wordFault_of_instr hd, ← commandFault_with_pending (rest := rest)] at h
    have hinv := withPending_inv hinv rest
    rw [step_instr hp hd]
    exact exec_answers_ok hinv ((hostObeys_iff_commandFault_eq_none hinv).2 h)
  | reserved why => cases (wordFault_of_reserved hd).symm.trans h

end words

/-! ### The statements of 60_exceptions.md -/

/-- Settles O39: a command word is one effect (`step_command_effect`), and the one that answers a fault raises it. -/
theorem faultEntryChangesOnlyStickyBit : Obligations.FaultEntryChangesOnlyStickyBit := by
  unfold Obligations.FaultEntryChangesOnlyStickyBit
  refine ⟨?entry, fun b f g => ?_, fun f s => (raise_eq_next ..).2 rfl, fun f => rfl⟩
  case entry =>
    intro s t c rest f hp h hr
    obtain ⟨e, rfl⟩ := step_command_effect hp h
    obtain rfl := Effect.eq_raised_of_responses (s := { s with pending := rest }) hr
    rfl
  · simp [has_raised, eq_comm (a := f) (b := g)]

/-- Settles O40: the word raises the fault of the table where there is one (`step_of_wordFault`), else it answers `OK`
(`step_answers_ok`). -/
theorem faultCauses : Obligations.FaultCauses := by
  unfold Obligations.FaultCauses
  intro s c rest hinv hp
  cases hf : wordFault c s with
  | some g => exact ⟨_, .fault g, step_of_wordFault hp hf, rfl, fun f => by simp⟩
  | none =>
    obtain ⟨t, d, ht, hr⟩ := step_answers_ok hinv hp hf
    exact ⟨t, .ok d, ht, hr, fun f => by simp⟩

/-- Settles O41: the command answers `OK` (`exec_answers_ok`), and an effect that does leaves the sticky bits. -/
theorem obeyingHostSeesNoFault : Obligations.ObeyingHostSeesNoFault := by
  unfold Obligations.ObeyingHostSeesNoFault
  intro i s hinv hobeys
  obtain ⟨t, d, ht, hr⟩ := exec_answers_ok hinv hobeys
  have hcfg := (SameShape.of_exec ht).cfg_eq
  have hpending := exec_pending ht
  obtain ⟨e, rfl, -⟩ := exec_eq_on ht
  exact ⟨_, d, ht, hr, Effect.fault_on_of_responses hr, hcfg, hpending⟩

end Sys2Proof.Machine

namespace Sys2Proof.Machine

/-! ### What a command can clear (R16, R17) -/

section kept
variable {s t : State}

/-- An engine stays seeded under every effect (R16). -/
theorem Effect.seeded_on (e : Effect) (h : s.seeded = true) : (e.on s).seeded = true := by
  cases e with
  | raised f => exact h
  | observed d => exact h
  | written sa idx d => rfl

/-- Where the next event is a command word, or none, the step keeps `SEEDED` and every sticky bit that is 1. -/
theorem step_keeps_of_not_rst (hp : ∀ rest, s.pending ≠ .rst :: rest) (h : step s = .next t) :
    (s.seeded = true → t.seeded = true) ∧ ∀ f, s.fault.has f = true → t.fault.has f = true := by
  match hs : s.pending with
  | [] =>
    cases (step_nil hs).symm.trans h
    exact ⟨id, fun _ => id⟩
  | .rst :: rest => exact absurd hs (hp rest)
  | .command c :: rest =>
    obtain ⟨e, rfl⟩ := step_command_effect hs h
    exact ⟨e.seeded_on (s := { s with pending := rest }), fun _ hf => e.has_on (s := { s with pending := rest }) hf⟩

end kept

/-! ### The engine directly after SEED (R97, R151) -/

/-- SEED leaves a seeded engine of `N` words with no lane left to read. -/
theorem exec_seed_full (x : U32) (s : State) :
    ∃ t, exec (.seed x) s = .next t ∧ t.sa.length = t.cfg.n ∧ t.seeded = true ∧ t.idx.toNat = t.cfg.lanes := by
  obtain ⟨sa, -, hlen, he⟩ := exec_seed_written x s
  exact ⟨_, he, hlen, rfl, ofNat_lanes_toNat s.cfg⟩

/-! ### The statements of 70_reset_and_hazards.md -/

/-- Settles O32: SEED leaves the cursor at `4N` (`exec_seed_full`), above the limits of both POP commands and at the
threshold of both NEXT commands. -/
theorem seededArrayIsNotOutput : Obligations.SeededArrayIsNotOutput := by
  unfold Obligations.SeededArrayIsNotOutput
  intro x s
  obtain ⟨t, ht, hlen, hs, hfull⟩ := exec_seed_full x s
  have hlanes := twenty_le_lanes t.cfg
  obtain ⟨sa', v, hw, hv, h32⟩ := exec_next32_of_full hlen hs hfull.ge
  obtain ⟨sa'', lo, hi, hw', hlo, hhi, h64⟩ := exec_next64_of_full hlen hs (by omega)
  obtain rfl : sa' = sa'' := Option.some.inj (hw.symm.trans hw')
  rw [← append_eq_setWidth_or_shiftLeft] at h64
  exact ⟨t, sa', ht, hw, execPop32_of_lt hs (by omega), execPop64_of_lt hs (by omega),
    ⟨_, v, h32, rfl, hv, rfl⟩, ⟨_, hi ++ lo, h64, rfl, memRead2_of_lanes hlo hhi, rfl⟩⟩

/-- Settles O43: the fields `applyReset` leaves; any other step keeps `SEEDED` and the sticky bits
(`step_keeps_of_not_rst`). -/
theorem resetAloneClears : Obligations.ResetAloneClears := by
  unfold Obligations.ResetAloneClears
  refine ⟨?reset, ?clears, fun s => step_nil⟩
  case reset =>
    intro s rest hp
    exact ⟨_, step_rst hp, rfl, rfl, rfl, rfl, rfl, applyReset_sa_length _⟩
  case clears =>
    intro s t h hcleared
    by_contra! hp
    obtain ⟨hseeded, hfault⟩ := step_keeps_of_not_rst hp h
    rcases hcleared with ⟨hs, ht⟩ | ⟨f, hs, ht⟩
    · simp [hseeded hs] at ht
    · simp [hfault f hs] at ht

/-- Settles O47, by the event at the port; a command word completes on an array of `N` words (`step_command_total`). -/
theorem blockNeverStops : Obligations.BlockNeverStops := by
  unfold Obligations.BlockNeverStops
  intro s hinv
  match hp : s.pending with
  | [] => exact ⟨s, step_nil hp⟩
  | .rst :: rest => exact ⟨_, step_rst hp⟩
  | .command c :: rest => exact step_command_total hinv.sa_length hp

end Sys2Proof.Machine
